-- ==== Sys2Proof/Word.lean ====
section
/-! DEFINITION. The word of the Intcode core. "Every value in a rule is a mathematical integer" (00_scope.md R11), so a value
is an `Int`; what makes it a machine word of a given width (R7) is the range below, which every rule that stores a value
checks. No rule of the spec views a word as bits, so a word is no bit vector (log 3). -/

namespace Sys2Proof

/-- `2^(WORD_BITS-1)`, the number of non-negative words (R7). -/
def wordHalf (bits : Nat) : Nat := 2 ^ (bits - 1)

/-- R11 `inWord(v)`: `v` lies in `[-2^(WORD_BITS-1), 2^(WORD_BITS-1) - 1]` (R7). -/
abbrev inWord (bits : Nat) (v : Int) : Prop :=
  -(wordHalf bits : Int) ≤ v ∧ v < (wordHalf bits : Int)

end Sys2Proof
end

