-- ==== Sys2Proof/Config.lean ====
section
/-! DEFINITION. The three parameters the spec leaves to the implementation (00_scope.md R7, R8, R9). A core carries its
parameters in its state (log 1), so that every claim is a claim about every admissible choice of them. -/

namespace Sys2Proof

/-- R9: what the decoder does with a non-zero digit above the mode digits of the instruction's own parameters. -/
inductive ExtraModeDigits where
  | ignore
  | fault
  deriving DecidableEq, Repr

/-- The parameters of one implementation of the core. -/
structure Config where
  /-- `WORD_BITS` (R7). -/
  wordBits : Nat
  /-- `MEM_SIZE` (R8), the number of words of Program Memory. -/
  memSize : Nat
  /-- `EXTRA_MODE_DIGITS` (R9). -/
  extraModeDigits : ExtraModeDigits
  deriving DecidableEq, Repr

/-- The constraints of R7, `WORD_BITS >= 52`, and R8, `1 <= MEM_SIZE` and `MEM_SIZE + 4 <= 2^(WORD_BITS-1) - 1`. -/
abbrev Config.valid (c : Config) : Prop :=
  52 ≤ c.wordBits ∧ 1 ≤ c.memSize ∧ c.memSize + 4 < wordHalf c.wordBits

/-- The parameters of `State.reset`: the spec's defaults for `WORD_BITS` (R7) and `EXTRA_MODE_DIGITS` (R9).
DESIGN CHOICE (log 2): `MEM_SIZE` is open and has no default; 4096 is the value 95_test_vectors.md assumes. -/
def Config.standard : Config :=
  { wordBits := 64, memSize := 4096, extraModeDigits := .ignore }

end Sys2Proof
end

