-- ==== Sys2Proof/Syntax.lean ====
section
/-! DEFINITION. The instructions of the core, as decoded: one constructor per row of the opcode map
(30_encoding.md R80), each with its parameters in the order a, b, c (00_scope.md R16). -/

namespace Sys2Proof

/-- R73: the three addressing modes. -/
inductive Mode where
  | position
  | immediate
  | relative
  deriving DecidableEq, Repr

/-- One parameter: its mode `m_i` and its raw parameter word `p_i` (R16). -/
structure Param where
  mode : Mode
  raw  : Int
  deriving DecidableEq, Repr

/-- The ten instructions of R80. An Immediate write parameter is a legal decoded form (R82): it faults when it executes. -/
inductive Instr where
  /-- opcode 1, `mem[c] = val(a) + val(b)` (R120) -/
  | add (a b c : Param)
  /-- opcode 2, `mem[c] = val(a) * val(b)` (R125) -/
  | mul (a b c : Param)
  /-- opcode 3, IN: `mem[a] = next queued input` (R140) -/
  | inp (a : Param)
  /-- opcode 4, enqueue val(a) to output (R145) -/
  | out (a : Param)
  /-- opcode 5, jump to val(b) if val(a) is not 0 (R160) -/
  | jt (a b : Param)
  /-- opcode 6, jump to val(b) if val(a) is 0 (R165) -/
  | jf (a b : Param)
  /-- opcode 7, `mem[c] = 1 if val(a) < val(b) else 0` (R180) -/
  | lt (a b c : Param)
  /-- opcode 8, `mem[c] = 1 if val(a) == val(b) else 0` (R185) -/
  | eq (a b c : Param)
  /-- opcode 9, `relative_base += val(a)` (R200) -/
  | arb (a : Param)
  /-- opcode 99, set status Terminated (R205) -/
  | hlt
  deriving DecidableEq, Repr

/-- The parameters of an instruction, in order. -/
def Instr.params : Instr → List Param
  | .add a b c => [a, b, c]
  | .mul a b c => [a, b, c]
  | .inp a => [a]
  | .out a => [a]
  | .jt a b => [a, b]
  | .jf a b => [a, b]
  | .lt a b c => [a, b, c]
  | .eq a b c => [a, b, c]
  | .arb a => [a]
  | .hlt => []

/-- R77: the write parameter of an instruction, where it has one. -/
def Instr.writeParam : Instr → Option Param
  | .add _ _ c => some c
  | .mul _ _ c => some c
  | .inp a => some a
  | .out _ => none
  | .jt _ _ => none
  | .jf _ _ => none
  | .lt _ _ c => some c
  | .eq _ _ c => some c
  | .arb _ => none
  | .hlt => none

end Sys2Proof
end

