-- ==== Sys2Proof/WellFormed.lean ====
section
/-! DEFINITION. When a decoded instruction is one that memory can hold (30_encoding.md R75, R78), and when it is one of
the forms that execute without an encoding fault (R82). Both are checks a program can run. -/

namespace Sys2Proof

/-- R75: a parameter word is any word of the given width, and nothing but a word. -/
def Param.wellFormed (bits : Nat) (p : Param) : Bool := decide (inWord bits p.raw)

/-- An instruction memory can hold: every parameter word is a word. Every mode is admitted for every parameter (R82: in a
write parameter "mode 1 is decoded and then faults `ImmediateWrite` when the instruction executes"). -/
def Instr.wellFormed (bits : Nat) (i : Instr) : Bool := i.params.all (Param.wellFormed bits)

/-- R82: the forms "that execute without an encoding fault", those whose write parameter is not Immediate. -/
def Instr.executableForm (i : Instr) : Bool :=
  match i.writeParam with
  | none => true
  | some p => decide (p.mode ≠ .immediate)

end Sys2Proof
end

