-- ==== Sys2Proof/Decode.lean ====
section
/-! DEFINITION. The decoder and, after it, the encoder (30_encoding.md). An instruction word is a decimal structure (R71);
the decoder works on the list of words that stand in memory from the instruction word on, is total, and rejects by name
(R83). Its checks come in the order of stages S2, S3 and S4 of 40_execution_cycle.md R101. -/

namespace Sys2Proof

/-- R12: the decimal digit of weight `10^k`. -/
def digit (w k : Nat) : Nat := w / 10 ^ k % 10

/-- Why a list of words holds no instruction. -/
inductive DecodeError where
  /-- Word `i` of the instruction (0 the instruction word, then the parameter words) is not in the list. -/
  | missing (i : Nat)
  /-- R72, R81: a negative word, or `w mod 100` not in the opcode map. -/
  | illegalOpcode
  /-- R73 (a mode digit 3 to 9 of parameter `i`), R76 (`i` is one more than the arity). -/
  | illegalMode (i : Nat)
  deriving DecidableEq, Repr

/-- R73: the mode a digit stands for. -/
def modeOfDigit : Nat → Option Mode
  | 0 => some .position
  | 1 => some .immediate
  | 2 => some .relative
  | _ => none

/-- S3 for parameter `i`: the mode digit `m_i = digit(w, i+1)`, or `IllegalMode` (R73). -/
def modeAt (w i : Nat) : Except DecodeError Mode :=
  match modeOfDigit (digit w (i + 1)) with
  | some m => .ok m
  | none => .error (.illegalMode i)

/-- The last check of S3, for arity `n` (R76). -/
def checkExtra (x : ExtraModeDigits) (w n : Nat) : Except DecodeError Unit :=
  match x with
  | .ignore => .ok ()
  | .fault => if w / 10 ^ (n + 2) = 0 then .ok () else .error (.illegalMode (n + 1))

/-- S4 for parameter `i`: the next word of the list is the parameter word `p_i`, as it stands (R75). -/
def takeParam (i : Nat) (m : Mode) : List Int → Except DecodeError (Param × List Int)
  | [] => .error (.missing i)
  | p :: ws => .ok (⟨m, p⟩, ws)

/-- Format F0 (R74). -/
def decode0 (mk : Instr) (x : ExtraModeDigits) (w : Nat) (ws : List Int) :
    Except DecodeError (Instr × List Int) := do
  let _ ← checkExtra x w 0
  pure (mk, ws)

/-- Format F1 (R74). -/
def decode1 (mk : Param → Instr) (x : ExtraModeDigits) (w : Nat) (ws : List Int) :
    Except DecodeError (Instr × List Int) := do
  let m1 ← modeAt w 1
  let _ ← checkExtra x w 1
  let (a, ws1) ← takeParam 1 m1 ws
  pure (mk a, ws1)

/-- Format F2 (R74). -/
def decode2 (mk : Param → Param → Instr) (x : ExtraModeDigits) (w : Nat) (ws : List Int) :
    Except DecodeError (Instr × List Int) := do
  let m1 ← modeAt w 1
  let m2 ← modeAt w 2
  let _ ← checkExtra x w 2
  let (a, ws1) ← takeParam 1 m1 ws
  let (b, ws2) ← takeParam 2 m2 ws1
  pure (mk a b, ws2)

/-- Format F3 (R74). -/
def decode3 (mk : Param → Param → Param → Instr) (x : ExtraModeDigits) (w : Nat) (ws : List Int) :
    Except DecodeError (Instr × List Int) := do
  let m1 ← modeAt w 1
  let m2 ← modeAt w 2
  let m3 ← modeAt w 3
  let _ ← checkExtra x w 3
  let (a, ws1) ← takeParam 1 m1 ws
  let (b, ws2) ← takeParam 2 m2 ws1
  let (c, ws3) ← takeParam 3 m3 ws2
  pure (mk a b c, ws3)

/-- R84: the dispatch on `op`, one arm per row of R80 and a last arm for `IllegalOpcode` (R81). -/
def decodeOpcode (x : ExtraModeDigits) (w : Nat) (ws : List Int) : Except DecodeError (Instr × List Int) :=
  match w % 100 with
  | 1 => decode3 .add x w ws
  | 2 => decode3 .mul x w ws
  | 3 => decode1 .inp x w ws
  | 4 => decode1 .out x w ws
  | 5 => decode2 .jt x w ws
  | 6 => decode2 .jf x w ws
  | 7 => decode3 .lt x w ws
  | 8 => decode3 .eq x w ws
  | 9 => decode1 .arb x w ws
  | 99 => decode0 .hlt x w ws
  | _ => .error .illegalOpcode

/-- The decoder: the instruction at the head of a list of words, and the words after it (R83). A negative instruction word
is an illegal opcode (R72). -/
def decode (x : ExtraModeDigits) : List Int → Except DecodeError (Instr × List Int)
  | [] => .error (.missing 0)
  | w :: ws => if w < 0 then .error .illegalOpcode else decodeOpcode x w.toNat ws

/-! ### The encoder -/

/-- R73: the digit of a mode. -/
def Mode.digit : Mode → Nat
  | .position => 0
  | .immediate => 1
  | .relative => 2

/-- R80: the opcode of an instruction. -/
def Instr.opcode : Instr → Nat
  | .add _ _ _ => 1
  | .mul _ _ _ => 2
  | .inp _ => 3
  | .out _ => 4
  | .jt _ _ => 5
  | .jf _ _ => 6
  | .lt _ _ _ => 7
  | .eq _ _ _ => 8
  | .arb _ => 9
  | .hlt => 99

/-- R70: the arity, the fixed number of parameters. -/
def Instr.arity (i : Instr) : Nat := i.params.length

/-- R74: the length in words. -/
def Instr.length (i : Instr) : Nat := 1 + i.arity

/-- The weighted sum of the mode digits of R78, the first parameter's digit having the weight `weight`. -/
def modeDigits (weight : Nat) : List Param → Nat
  | [] => 0
  | p :: ps => weight * p.mode.digit + modeDigits (10 * weight) ps

/-- R78: the instruction word `op + 100*m1 + 1000*m2 + 10000*m3`, with the digits of the instruction's own parameters. -/
def Instr.word (i : Instr) : Nat := i.opcode + modeDigits 100 i.params

/-- R78: the instruction word, then the parameter words in order. -/
def encode (i : Instr) : List Int := (i.word : Int) :: i.params.map Param.raw

/-! ### An instruction as a numbered string of bits

The spec gives a word no bit view (R52). The host of this pipeline hands instructions over as bits, bit 0 the least
significant bit of the first word; log 9 says how the model lays words out in them. -/

/-- The longest instruction, in words (R74). -/
def maxLength : Nat := 4

/-- The word whose two's-complement bits of the given width are the low bits of `n` (R7: "a signed two's-complement
integer"). -/
def wordOfBits (bits n : Nat) : Int :=
  let r := n % 2 ^ bits
  if r < wordHalf bits then (r : Int) else (r : Int) - (2 ^ bits : Nat)

/-- The bits of a word, as a number below `2^bits`. -/
def bitsOfWord (bits : Nat) (v : Int) : Nat := (v % ((2 ^ bits : Nat) : Int)).toNat

/-- The first `k` words of a string of bits. -/
def wordsOfBits (bits : Nat) : Nat → Nat → List Int
  | 0, _ => []
  | k + 1, n => wordOfBits bits n :: wordsOfBits bits k (n / 2 ^ bits)

/-- A list of words as one string of bits, the first word lowest. -/
def bitsOfWords (bits : Nat) : List Int → Nat
  | [] => 0
  | v :: vs => bitsOfWord bits v + 2 ^ bits * bitsOfWords bits vs

/-- The words an instruction of `nbits` given bits stands for: the bits above `nbits` are 0, up to the longest instruction. -/
def tableWords (bits nbits w : Nat) : List Int := wordsOfBits bits maxLength (w % 2 ^ nbits)

/-- What the decoder reads from an instruction whose bits are `w`, with the parameters of `State.reset` (log 9). -/
def decodeTableWord (nbits w : Nat) : Option Instr :=
  match decode Config.standard.extraModeDigits (tableWords Config.standard.wordBits nbits w) with
  | .ok (i, _) => some i
  | .error _ => none

end Sys2Proof
end

