-- ==== Sys2Proof/Machine/State.lean ====
section
/-! DEFINITION. The state of one core (10_state.md R20), as plain data: the seven components of R20 and, as the model's own
field, the parameters of the implementation (log 1). Beside it, why a step of the model can stop. -/

namespace Sys2Proof.Machine

/-- R28: the run status. -/
inductive Status where
  /-- "no instructions executed yet" -/
  | ready
  /-- "held only while the fetch-execute loop is actively iterating" -/
  | running
  /-- "an input-read opcode found the input queue empty" -/
  | suspended
  /-- "halt opcode executed; permanent" -/
  | terminated
  /-- a fatal condition was detected; permanent -/
  | faulted
  deriving DecidableEq, Repr

/-- R28: the reporting code of a status. -/
def Status.code : Status → Nat
  | .ready => 0
  | .running => 1
  | .suspended => 2
  | .terminated => 3
  | .faulted => 4

/-- R221: the fatal conditions. -/
inductive FaultCause where
  | illegalOpcode
  | outOfBounds
  | immediateWrite
  | illegalMode
  | arithOverflow
  deriving DecidableEq, Repr

/-- R221: the reporting code of a cause. -/
def FaultCause.code : FaultCause → Nat
  | .illegalOpcode => 1
  | .outOfBounds => 2
  | .immediateWrite => 3
  | .illegalMode => 4
  | .arithOverflow => 5

/-- R29: the fault record. -/
structure FaultRecord where
  cause : FaultCause
  /-- the field `at`: the value of `ip` at the faulting step -/
  atIp  : Int
  /-- the instruction word, or none if the fetch itself faulted -/
  word  : Option Int
  /-- the parameter concerned, 0 for the instruction word -/
  param : Nat
  /-- the offending address of `outOfBounds`, an exact integer -/
  addr  : Option Int
  deriving DecidableEq, Repr

/-- Program Memory (R25): the words that are not 0, as pairs of address and word, addresses strictly rising. An address that
is not listed holds 0. The unit is the word: the spec forbids a byte view (20_memory.md R52, log 4). -/
abbrev Memory := List (Nat × Int)

/-- The whole state of one core. -/
structure State where
  /-- the model's own field: the parameters R7 to R9, which nothing changes (log 1) -/
  cfg    : Config
  /-- `M` (R25) -/
  mem    : Memory
  /-- the instruction pointer (R22) -/
  ip     : Int
  /-- the relative base (R24) -/
  rb     : Int
  /-- the run status (R28) -/
  status : Status
  /-- the input queue, oldest first (R26) -/
  inq    : List Int
  /-- the output queue, oldest first (R27) -/
  outq   : List Int
  /-- the fault record (R29) -/
  fault  : Option FaultRecord
  deriving DecidableEq, Repr

/-- The core right after reset (R34, 70_reset_and_hazards.md R270): the launch state of the empty program (log 5), with the
parameters `Config.standard` (log 2). -/
def State.reset : State :=
  { cfg := Config.standard, mem := [], ip := 0, rb := 0, status := .ready, inq := [], outq := [], fault := none }

/-- Why a step of the model stops. The spec's own faults are no stop of the model: their entry is described (60_exceptions.md
R222) and is taken as a next state whose status is `faulted`. -/
inductive Fault where
  /-- Raised by `step` alone, when the status is not Running: "A step is defined only when `status = Running`" (R100). Safe:
  the model gives no next state, so nothing can be proved of one (log 6). -/
  | notRunning (status : Status)
  deriving DecidableEq, Repr

/-- Why the model has no meaning to give. -/
inductive Refusal where
  /-- Raised by an arm of `exec` that has no meaning yet, under the mnemonic of the opcode table. Safe: no next state. No arm
  uses it. -/
  | notModelled (mnemonic : String)
  deriving DecidableEq, Repr

end Sys2Proof.Machine
end

