-- ==== Sys2Proof/Machine/Ops.lean ====
section
/-! DEFINITION. The named operations over memory and registers, fetching, and the entry into a fault as one shared
operation (60_exceptions.md R222). There is no return from a fault (R223), so none stands beside it. -/

namespace Sys2Proof.Machine

/-! ### Program Memory -/

/-- R13 `MemRead`: the word at an address, 0 where nothing is listed (R25). -/
def Memory.read : Memory → Nat → Int
  | [], _ => 0
  | (b, x) :: m, a => if a = b then x else Memory.read m a

/-- The list with the word `v` first at address `a`; the word 0 is not listed. -/
def Memory.put (a : Nat) (v : Int) (m : Memory) : Memory := if v = 0 then m else (a, v) :: m

/-- R13 `MemWrite`: exactly the word at `a` becomes `v` (20_memory.md R53). -/
def Memory.write : Memory → Nat → Int → Memory
  | [], a, v => Memory.put a v []
  | (b, x) :: m, a, v =>
    if a < b then Memory.put a v ((b, x) :: m)
    else if a = b then Memory.put a v m
    else (b, x) :: Memory.write m a v

/-- Whether every listed address is at least `lo`, the addresses rise strictly and no listed word is 0. -/
def Memory.wfFrom : Nat → Memory → Bool
  | _, [] => true
  | lo, (a, v) :: m => decide (lo ≤ a) && decide (v ≠ 0) && Memory.wfFrom (a + 1) m

/-- The canonical form of a memory. -/
def Memory.wf (m : Memory) : Bool := Memory.wfFrom 0 m

/-- R50: the legal addresses. -/
abbrev inRange (c : Config) (a : Int) : Prop := 0 ≤ a ∧ a < (c.memSize : Int)

/-- The state with the word at a legal address replaced. -/
def State.store (s : State) (d : Nat) (v : Int) : State := { s with mem := s.mem.write d v }

/-- R104, "no jump": `ip` moves past an instruction of `n` words, an exact sum that never wraps (R23). -/
def State.advance (s : State) (n : Nat) : State := { s with ip := s.ip + n }

/-- R104, "taken jump": any word is a target and nothing is checked (R160). -/
def State.jump (s : State) (t : Int) : State := { s with ip := t }

/-! ### Faults -/

/-- What `raise Fault(cause, info)` says beside the place (R15, R29). -/
structure FaultInfo where
  cause : FaultCause
  param : Nat
  addr  : Option Int
  deriving DecidableEq, Repr

/-- The `word` of a fault record (R29): `M[ip]`, or none if the fetch itself faults. A step changes nothing before it
raises, so this is the word the step fetched. -/
def State.faultWord (s : State) : Option Int :=
  if inRange s.cfg s.ip then some (s.mem.read s.ip.toNat) else none

/-- R222, fault entry: the status becomes Faulted and the record is written; nothing else changes (R105). -/
def State.raise (s : State) (f : FaultInfo) : State :=
  { s with
    status := .faulted
    fault := some { cause := f.cause, atIp := s.ip, word := s.faultWord, param := f.param, addr := f.addr } }

/-- S7 of R101: the state the effect computed, or the entry into the fault that an earlier stage raised. -/
def commit (s : State) (r : Except FaultInfo State) : Host.Outcome State Fault Refusal :=
  match r with
  | .ok t => .next t
  | .error f => .next (s.raise f)

/-! ### Fetching -/

/-- The words of memory from address `a` on, at most `k` of them, up to the end of memory. -/
def wordsFrom (s : State) : Int → Nat → List Int
  | _, 0 => []
  | a, k + 1 => if inRange s.cfg a then s.mem.read a.toNat :: wordsFrom s (a + 1) k else []

/-- The fault of a failed decode: S1 and S4 (a word of the instruction lies outside memory), S2, S3 of R101. -/
def decodeFault (s : State) : DecodeError → FaultInfo
  | .missing i => { cause := .outOfBounds, param := i, addr := some (s.ip + i) }
  | .illegalOpcode => { cause := .illegalOpcode, param := 0, addr := none }
  | .illegalMode i => { cause := .illegalMode, param := i, addr := none }

/-- S1 to S4 of R101: the instruction at `ip`, decoded afresh from memory as it stands (R62, R83). -/
def fetchInstr (s : State) : Except FaultInfo Instr :=
  match decode s.cfg.extraModeDigits (wordsFrom s s.ip maxLength) with
  | .ok (i, _) => .ok i
  | .error e => .error (decodeFault s e)

/-- The list of words stored from address `a` on; a word that would lie outside memory is not stored. -/
def State.storeWords (s : State) : Nat → List Int → State
  | _, [] => s
  | a, v :: vs => if a < s.cfg.memSize then State.storeWords (s.store a v) (a + 1) vs else s

end Sys2Proof.Machine
end

