-- ==== Sys2Proof/Machine/Operands.lean ====
section
/-! DEFINITION. The addressing-mode resolver (40_execution_cycle.md R102, R103): every operand form of the core. -/

namespace Sys2Proof.Machine

/-- R73, the address of a parameter: the raw word, or the raw word plus `rb`, an exact sum (D5); Immediate has none. -/
def paramAddress (s : State) (p : Param) : Option Int :=
  match p.mode with
  | .position => some p.raw
  | .immediate => none
  | .relative => some (p.raw + s.rb)

/-- The bounds check of R102 and R103 on the address of parameter `i`. -/
def checkAddress (s : State) (i : Nat) (a : Int) : Except FaultInfo Nat :=
  if inRange s.cfg a then .ok a.toNat else .error { cause := .outOfBounds, param := i, addr := some a }

/-- R102 `val(i)`: the value of read parameter `i`. -/
def valueOf (s : State) (i : Nat) (p : Param) : Except FaultInfo Int :=
  match paramAddress s p with
  | none => .ok p.raw
  | some a => (checkAddress s i a).map (fun d => s.mem.read d)

/-- R103 `addr(i)`: the address of write parameter `i`; an Immediate one faults. -/
def addressOf (s : State) (i : Nat) (p : Param) : Except FaultInfo Nat :=
  match paramAddress s p with
  | none => .error { cause := .immediateWrite, param := i, addr := none }
  | some a => checkAddress s i a

end Sys2Proof.Machine
end

