-- ==== Sys2Proof/Machine/Flags.lean ====
section
/-! DEFINITION. The ALU (40_execution_cycle.md R109). The core has no flags (10_state.md R30): what another core keeps in
a flag, this one writes to memory as the word 1 or 0, or reports as the fault `ArithOverflow`; both are computed here. -/

namespace Sys2Proof.Machine

/-- The range check where a result is stored as a word (R11, R109): an exact result that is no word overflows (D4). -/
def checkWord (c : Config) (r : Int) : Except FaultInfo Int :=
  if inWord c.wordBits r then .ok r else .error { cause := .arithOverflow, param := 0, addr := none }

/-- R109 `aluAdd`: the exact sum. -/
def aluAdd (c : Config) (x y : Int) : Except FaultInfo Int := checkWord c (x + y)

/-- R109 `aluMul`: the exact product. -/
def aluMul (c : Config) (x y : Int) : Except FaultInfo Int := checkWord c (x * y)

/-- R109 `aluLt`: the word 1 if `x < y` (signed), else 0. It cannot fault. -/
def aluLt (_ : Config) (x y : Int) : Except FaultInfo Int := .ok (if x < y then 1 else 0)

/-- R109 `aluEq`: the word 1 if `x = y`, else 0. It cannot fault. -/
def aluEq (_ : Config) (x y : Int) : Except FaultInfo Int := .ok (if x = y then 1 else 0)

/-- R109 `baseAdd`: the exact sum for `rb`. -/
def baseAdd (c : Config) (rb y : Int) : Except FaultInfo Int := checkWord c (rb + y)

/-- S5 and S6 of R101 for format F3: both read parameters, then the write parameter, then the ALU, then one write
(R59: every read comes before the write). -/
def alu3 (f : Config → Int → Int → Except FaultInfo Int) (a b c : Param) (s : State) : Except FaultInfo State := do
  let x ← valueOf s 1 a
  let y ← valueOf s 2 b
  let d ← addressOf s 3 c
  let r ← f s.cfg x y
  pure ((s.store d r).advance 4)

/-- S5 and S6 of R101 for format F2: both read parameters, then the jump if the condition holds of the first. -/
def jump2 (taken : Int → Bool) (a b : Param) (s : State) : Except FaultInfo State := do
  let x ← valueOf s 1 a
  let t ← valueOf s 2 b
  pure (if taken x then s.jump t else s.advance 3)

end Sys2Proof.Machine
end

