-- ==== Sys2Proof/Machine/Arithmetic.lean ====
section
/-! DEFINITION. The arithmetic instructions (41_arithmetic.md). -/

namespace Sys2Proof.Machine

/-- `ADD a, b, c` (R120). -/
def execAdd (a b c : Param) (s : State) : Host.Outcome State Fault Refusal := commit s (alu3 aluAdd a b c s)

/-- `MUL a, b, c` (R125). -/
def execMul (a b c : Param) (s : State) : Host.Outcome State Fault Refusal := commit s (alu3 aluMul a b c s)

end Sys2Proof.Machine
end

