-- ==== Sys2Proof/Machine/BaseAndHalt.lean ====
section
/-! DEFINITION. The relative-base adjust and the halt (45_base_and_halt.md). -/

namespace Sys2Proof.Machine

/-- S5 and S6 of `ARB a` (R200): the operand is read with the old base (R201), the sum is exact. -/
def adjustBase (a : Param) (s : State) : Except FaultInfo State := do
  let y ← valueOf s 1 a
  let r ← baseAdd s.cfg s.rb y
  pure ({ s with rb := r }.advance 2)

/-- `ARB a` (R200). -/
def execArb (a : Param) (s : State) : Host.Outcome State Fault Refusal := commit s (adjustBase a s)

/-- `HLT` (R205): the status becomes Terminated and `ip` keeps the address of the HLT word (R206). -/
def execHlt (s : State) : Host.Outcome State Fault Refusal := commit s (.ok { s with status := .terminated })

end Sys2Proof.Machine
end

