-- ==== Sys2Proof/Machine/Compare.lean ====
section
/-! DEFINITION. The comparison instructions (44_compare.md): the result is a word in memory, not a flag. -/

namespace Sys2Proof.Machine

/-- `LT a, b, c` (R180). -/
def execLt (a b c : Param) (s : State) : Host.Outcome State Fault Refusal := commit s (alu3 aluLt a b c s)

/-- `EQ a, b, c` (R185). -/
def execEq (a b c : Param) (s : State) : Host.Outcome State Fault Refusal := commit s (alu3 aluEq a b c s)

end Sys2Proof.Machine
end

