-- ==== Sys2Proof/Machine/InputOutput.lean ====
section
/-! DEFINITION. The input and output instructions (42_io.md), the only ones that touch the queues. -/

namespace Sys2Proof.Machine

/-- S5 and S6 of `IN a` (R140): the destination is resolved first (R110), then the queue is tested. On an empty queue the
core suspends and nothing else changes; else the oldest word is removed (R141) and written. -/
def inputEffect (a : Param) (s : State) : Except FaultInfo State := do
  let d ← addressOf s 1 a
  match s.inq with
  | [] => pure { s with status := .suspended }
  | v :: rest => pure (({ s with inq := rest }.store d v).advance 2)

/-- `IN a` (R140). -/
def execIn (a : Param) (s : State) : Host.Outcome State Fault Refusal := commit s (inputEffect a s)

/-- S5 and S6 of `OUT a` (R145): the value is appended to the output queue. -/
def outputEffect (a : Param) (s : State) : Except FaultInfo State := do
  let x ← valueOf s 1 a
  pure ({ s with outq := s.outq ++ [x] }.advance 2)

/-- `OUT a` (R145). -/
def execOut (a : Param) (s : State) : Host.Outcome State Fault Refusal := commit s (outputEffect a s)

end Sys2Proof.Machine
end

