-- ==== Sys2Proof/Machine/Jumps.lean ====
section
/-! DEFINITION. The conditional jumps (43_jumps.md). The target is a value, taken unchecked; a target outside memory faults
at the next fetch (R160). -/

namespace Sys2Proof.Machine

/-- `JT a, b` (R160): every word but 0 is true (R161). -/
def execJt (a b : Param) (s : State) : Host.Outcome State Fault Refusal :=
  commit s (jump2 (fun x => decide (x ≠ 0)) a b s)

/-- `JF a, b` (R165): only 0 is false (R166). -/
def execJf (a b : Param) (s : State) : Host.Outcome State Fault Refusal :=
  commit s (jump2 (fun x => decide (x = 0)) a b s)

end Sys2Proof.Machine
end

