-- ==== Sys2Proof/Machine/Step.lean ====
section
/-! DEFINITION. One step of the core (40_execution_cycle.md R101): fetch and decode, then the instruction's own meaning.
A step is defined only when the core is Running (R100); asked of any other core, the model stops (log 6). -/

namespace Sys2Proof.Machine

/-- One step. A fault of stages S1 to S4 enters Faulted here; S5 to S7 are the instruction's meaning. -/
def step (s : State) : Host.Outcome State Fault Refusal :=
  match s.status with
  | .running =>
    match fetchInstr s with
    | .ok i => exec i s
    | .error f => commit s (.error f)
  | .ready => .fault (.notRunning .ready)
  | .suspended => .fault (.notRunning .suspended)
  | .terminated => .fault (.notRunning .terminated)
  | .faulted => .fault (.notRunning .faulted)

/-- Where an instruction of the longest length can be stored for the next fetch: at `ip` if it fits there, else at 0. -/
def fetchPlace (s : State) : Nat :=
  if 0 ≤ s.ip ∧ s.ip + maxLength ≤ s.cfg.memSize then s.ip.toNat else 0

/-- The state with the instruction whose bits are `w` placed where the next step fetches it, and the core Running, so that
the very next step runs it. It stands for the load of a program and the host's `execute` (log 7). -/
def State.withFetchWord (s : State) (nbits w : Nat) : State :=
  let a := fetchPlace s
  { s.storeWords a (tableWords s.cfg.wordBits nbits w) with ip := a, status := .running }

end Sys2Proof.Machine
end

