-- ==== Sys2Proof/Machine/Listing.lean ====
section
/-! DEFINITION. The spec's notation for programs: pseudo-instructions, assembly and disassembly (30_encoding.md R90 to R92).
A reading aid only: no step uses anything of this file. -/

namespace Sys2Proof

/-! ### Pseudo-instructions (R91) -/

/-- `JMP t`. -/
def jmp (t : Param) : Instr := .jt ⟨.immediate, 1⟩ t

/-- `MOV s, d`. -/
def mov (src dst : Param) : Instr := .add src ⟨.immediate, 0⟩ dst

/-- `NOP`. -/
def nop : Instr := .jf ⟨.immediate, 1⟩ ⟨.immediate, 0⟩

/-! ### Text (R90) -/

/-- R19: the mnemonic of an instruction. -/
def Instr.mnemonic : Instr → String
  | .add _ _ _ => "ADD"
  | .mul _ _ _ => "MUL"
  | .inp _ => "IN"
  | .out _ => "OUT"
  | .jt _ _ => "JT"
  | .jf _ _ => "JF"
  | .lt _ _ _ => "LT"
  | .eq _ _ _ => "EQ"
  | .arb _ => "ARB"
  | .hlt => "HLT"

/-- R90: an operand as text. -/
def Param.text (p : Param) : String :=
  match p.mode with
  | .position => "[" ++ toString p.raw ++ "]"
  | .immediate => "#" ++ toString p.raw
  | .relative =>
    if p.raw < 0 then "[rb-" ++ toString (-p.raw) ++ "]" else "[rb+" ++ toString p.raw ++ "]"

/-- R90: an instruction as text. -/
def Instr.text (i : Instr) : String :=
  match i.params with
  | [] => i.mnemonic
  | ps => i.mnemonic ++ " " ++ String.intercalate ", " (ps.map Param.text)

/-- R90: a tape as its comma-separated words. -/
def tapeText (tape : List Int) : String := String.intercalate "," (tape.map (fun v => toString v))

/-! ### Assembly (R90) -/

/-- What may stand for the number of an operand: a number, a label, which stands for its address, or a label with a minus
sign, which stands for the negated address (log 12). -/
inductive Operand where
  | number (v : Int)
  | label (name : String)
  | negLabel (name : String)
  deriving DecidableEq, Repr

/-- A line of assembly. An instruction is given by its opcode and its operands. -/
inductive SourceLine where
  | label (name : String)
  | data (vs : List Int)
  | instr (opcode : Nat) (operands : List (Mode × Operand))
  deriving DecidableEq, Repr

/-- The words a line takes. -/
def SourceLine.size : SourceLine → Nat
  | .label _ => 0
  | .data vs => vs.length
  | .instr _ ps => 1 + ps.length

/-- The address each label of a program stands for, "the address of the next word", the first line standing at `a`. -/
def labelTable : Nat → List SourceLine → List (String × Nat)
  | _, [] => []
  | a, .label name :: ls => (name, a) :: labelTable a ls
  | a, .data vs :: ls => labelTable (a + vs.length) ls
  | a, .instr _ ps :: ls => labelTable (a + (1 + ps.length)) ls

/-- The parameter of an operand; none for a label that no line defines. DESIGN CHOICE (log 12): of a label that several
lines define, the first definition counts. -/
def resolveOperand (labels : List (String × Nat)) : Mode × Operand → Option Param
  | (m, .number v) => some ⟨m, v⟩
  | (m, .label name) => (labels.lookup name).map (fun a => ⟨m, (a : Int)⟩)
  | (m, .negLabel name) => (labels.lookup name).map (fun a => ⟨m, -(a : Int)⟩)

/-- The words of one line (R78 for an instruction). -/
def assembleLine (labels : List (String × Nat)) : SourceLine → Option (List Int)
  | .label _ => some []
  | .data vs => some vs
  | .instr op ps =>
    (ps.mapM (resolveOperand labels)).map
      (fun qs => ((op + modeDigits 100 qs : Nat) : Int) :: qs.map Param.raw)

/-- The tape of a program; none if a label is used and not defined. -/
def assemble (ls : List SourceLine) : Option (List Int) :=
  (ls.mapM (assembleLine (labelTable 0 ls))).map List.flatten

/-! ### Reading assembly (R90, R91)

A line is read from its characters. Spaces around a part of a line mean nothing. -/

/-- The characters without the spaces before them. -/
def dropSpaces : List Char → List Char
  | [] => []
  | c :: cs => if c = ' ' then dropSpaces cs else c :: cs

/-- The characters without the spaces around them. -/
def trimSpaces (cs : List Char) : List Char := (dropSpaces (dropSpaces cs).reverse).reverse

/-- The parts between the occurrences of a character; one part where it does not occur. -/
def splitAtChar (sep : Char) : List Char → List (List Char)
  | [] => [[]]
  | c :: cs =>
    if c = sep then [] :: splitAtChar sep cs
    else match splitAtChar sep cs with
      | [] => [[c]]
      | part :: parts => (c :: part) :: parts

/-- The digits of a natural number, read on from `acc`. -/
def readDigits (acc : Nat) : List Char → Option Nat
  | [] => some acc
  | c :: cs => if c.isDigit then readDigits (10 * acc + (c.toNat - 48)) cs else none

/-- A number, with or without a minus sign. -/
def readInt : List Char → Option Int
  | [] => none
  | c :: cs =>
    if c = '-' then
      match cs with
      | [] => none
      | _ :: _ => (readDigits 0 cs).map (fun n => -(n : Int))
    else (readDigits 0 (c :: cs)).map (fun n => (n : Int))

/-- Whether the characters are a label's name: not empty, starting with a letter, with letters, digits and `_`. -/
def isLabelName : List Char → Bool
  | [] => false
  | c :: cs => c.isAlpha && cs.all (fun d => d.isAlphanum || d == '_')

/-- A number or a label. -/
def readNumber (cs : List Char) : Option Operand :=
  match readInt cs with
  | some v => some (.number v)
  | none => if isLabelName cs then some (.label (String.ofList cs)) else none

/-- The `-n` of `rb-n`. DESIGN CHOICE (log 12): a label may stand for `n` there as after `rb+`; a second sign may not. -/
def readNegated (cs : List Char) : Option Operand :=
  match cs with
  | [] => none
  | d :: ds =>
    match readDigits 0 (d :: ds) with
    | some n => some (.number (-(n : Int)))
    | none => if isLabelName (d :: ds) then some (.negLabel (String.ofList (d :: ds))) else none

/-- The inside of the brackets of an operand: `n`, `rb+n` or `rb-n`. -/
def readBracketed (cs : List Char) : Option (Mode × Operand) :=
  match cs with
  | 'r' :: 'b' :: '+' :: ds => (readNumber ds).map (fun n => (.relative, n))
  | 'r' :: 'b' :: '-' :: ds => (readNegated ds).map (fun n => (.relative, n))
  | ds => (readNumber ds).map (fun n => (.position, n))

/-- R90: an operand. -/
def readOperand (cs : List Char) : Option (Mode × Operand) :=
  match trimSpaces cs with
  | '#' :: ds => (readNumber ds).map (fun n => (.immediate, n))
  | '[' :: ds =>
    match ds.reverse with
    | ']' :: es => readBracketed es.reverse
    | _ => none
  | _ => none

/-- The opcode and the arity of a mnemonic (R80). -/
def opcodeOfMnemonic (name : List Char) : Option (Nat × Nat) :=
  ([("ADD", 1, 3), ("MUL", 2, 3), ("IN", 3, 1), ("OUT", 4, 1), ("JT", 5, 2), ("JF", 6, 2), ("LT", 7, 3), ("EQ", 8, 3),
    ("ARB", 9, 1), ("HLT", 99, 0)] : List (String × Nat × Nat)).lookup (String.ofList name)

/-- R90, R91: a mnemonic or a pseudo-instruction with its operands. -/
def readInstr (name : List Char) (ops : List (Mode × Operand)) : Option SourceLine :=
  match opcodeOfMnemonic name with
  | some (op, arity) => if ops.length = arity then some (.instr op ops) else none
  | none =>
    match String.ofList name, ops with
    | "JMP", [t] => some (.instr 5 [(.immediate, .number 1), t])
    | "MOV", [src, dst] => some (.instr 1 [src, (.immediate, .number 0), dst])
    | "NOP", [] => some (.instr 6 [(.immediate, .number 1), (.immediate, .number 0)])
    | _, _ => none

/-- The first word of a line and what follows it. -/
def firstWord : List Char → List Char × List Char
  | [] => ([], [])
  | c :: cs => if c = ' ' then ([], cs) else ((c :: (firstWord cs).1), (firstWord cs).2)

/-- The comma-separated parts of an operand list; none for an empty one. -/
def commaParts (cs : List Char) : List (List Char) :=
  match trimSpaces cs with
  | [] => []
  | c :: ds => splitAtChar ',' (c :: ds)

/-- R90: what follows the labels of a line: nothing, a `DATA` directive or an instruction. -/
def readStatement (cs : List Char) : Option (List SourceLine) :=
  match trimSpaces cs with
  | [] => some []
  | d :: ds =>
    let (name, rest) := firstWord (d :: ds)
    if String.ofList name = "DATA" then
      ((commaParts rest).mapM (fun p => readInt (trimSpaces p))).map (fun vs => [.data vs])
    else ((commaParts rest).mapM readOperand).bind (fun ops => (readInstr name ops).map (fun l => [l]))

/-- The parts of a line between its colons: labels, then a statement. -/
def readParts : List (List Char) → Option (List SourceLine)
  | [] => some []
  | [cs] => readStatement cs
  | name :: c :: cs =>
    if isLabelName (trimSpaces name) then
      (readParts (c :: cs)).map (fun ls => .label (String.ofList (trimSpaces name)) :: ls)
    else none

/-- The characters before the first `;`. -/
def dropComment : List Char → List Char
  | [] => []
  | c :: cs => if c = ';' then [] else c :: dropComment cs

/-- R90: a line of assembly. DESIGN CHOICE (log 12): `;` starts a comment, as the programs P2 to P4 of 95_test_vectors.md have
it, and R90 does not say. -/
def readLine (line : String) : Option (List SourceLine) := readParts (splitAtChar ':' (dropComment line.toList))

/-- R90: the tape of a program given as its lines; none where a line is no assembly. -/
def assembleText (lines : List String) : Option (List Int) :=
  (lines.mapM readLine).bind (fun ls => assemble ls.flatten)

/-! ### Disassembly (R92) -/

/-- A line of a listing. -/
inductive ListingLine where
  | instr (i : Instr)
  | data (w : Int)
  deriving DecidableEq, Repr

/-- A listing line as text. -/
def ListingLine.text : ListingLine → String
  | .instr i => i.text
  | .data w => "DATA " ++ toString w

/-- R92: decode, print, move on by the length; a word with an illegal verdict is `DATA` and takes one word. A word whose
parameter words lie past the end of the tape is shown as `DATA` too (log 12). -/
def disassemble (x : ExtraModeDigits) : Nat → List Int → List ListingLine
  | 0, _ => []
  | _ + 1, [] => []
  | n + 1, w :: ws =>
    match decode x (w :: ws) with
    | .ok (i, rest) => .instr i :: disassemble x n rest
    | .error _ => .data w :: disassemble x n ws

/-- The listing of a whole tape: no line takes less than one word. -/
def listing (x : ExtraModeDigits) (tape : List Int) : List ListingLine := disassemble x tape.length tape

end Sys2Proof
end

