-- ==== Sys2Proof/Machine/HostInterface.lean ====
section
/-! DEFINITION. Run control and the host-facing operations (60_exceptions.md R230 to R244, 70_reset_and_hazards.md R270 to
R274). The host is outside the core and acts only between runs (R233): none of these is a step. Log 8 says how a host
operation that is not accepted is answered, log 11 how a run that does not end is. -/

namespace Sys2Proof.Machine

/-- Why a host operation is not carried out. Nothing changes then. -/
inductive HostError where
  /-- R233: "A host operation is accepted only when `status != Running`". -/
  | running
  /-- R243: the address is outside memory. -/
  | badAddress
  /-- R241, R243, R270: the value is not a word. -/
  | notAWord
  /-- R270: the program is longer than memory. -/
  | programTooLong
  deriving DecidableEq, Repr

/-! ### Launch -/

/-- The memory that holds the words of a list from address `a` on, and 0 elsewhere. -/
def Memory.load : Nat → List Int → Memory
  | _, [] => []
  | a, v :: vs => Memory.put a v (Memory.load (a + 1) vs)

/-- R270 `new(program)`: the core's only reset (R272). -/
def State.new (c : Config) (program : List Int) : Except HostError State :=
  if c.memSize < program.length then .error .programTooLong
  else if program.all (fun v => decide (inWord c.wordBits v)) then
    .ok { cfg := c, mem := Memory.load 0 program, ip := 0, rb := 0, status := .ready, inq := [], outq := [], fault := none }
  else .error .notAWord

/-! ### Queues and memory -/

/-- R241 `write_input(v)`: appends to the input queue, in every status but Running. -/
def State.writeInput (s : State) (v : Int) : Except HostError State :=
  if s.status = .running then .error .running
  else if inWord s.cfg.wordBits v then .ok { s with inq := s.inq ++ [v] }
  else .error .notAWord

/-- R242 `read_output()`: takes the oldest output; none, and no change, when there is no output (C2). -/
def State.readOutput (s : State) : Except HostError (Option Int × State) :=
  if s.status = .running then .error .running
  else match s.outq with
    | [] => .ok (none, s)
    | v :: rest => .ok (some v, { s with outq := rest })

/-- R243 `read_mem(a)`. -/
def State.readMem (s : State) (a : Int) : Except HostError Int :=
  if s.status = .running then .error .running
  else if inRange s.cfg a then .ok (s.mem.read a.toNat)
  else .error .badAddress

/-- R243 `write_mem(a, v)`: seen by the next step (20_memory.md R62). -/
def State.writeMem (s : State) (a : Int) (v : Int) : Except HostError State :=
  if s.status = .running then .error .running
  else if ¬ inRange s.cfg a then .error .badAddress
  else if inWord s.cfg.wordBits v then .ok (s.store a.toNat v)
  else .error .notAWord

/-- R244, R33: clone gives a second core with the same full state; states are values and share nothing. -/
def State.clone (s : State) : Except HostError (State × State) :=
  if s.status = .running then .error .running else .ok (s, s)

/-- R273 step 2: what the host may put in place before `execute`. -/
inductive Seed where
  | input (v : Int)
  | mem (a : Int) (v : Int)
  deriving DecidableEq, Repr

/-- One seed of R273. -/
def State.seed (s : State) : Seed → Except HostError State
  | .input v => s.writeInput v
  | .mem a v => s.writeMem a v

/-- All seeds of R273, in order. -/
def State.seeds : State → List Seed → Except HostError State
  | s, [] => .ok s
  | s, x :: xs => match s.seed x with
    | .ok t => State.seeds t xs
    | .error e => .error e

/-- R274 `Launch(program, seeds)`: the launch state. -/
def launch (c : Config) (program : List Int) (seeds : List Seed) : Except HostError State :=
  match State.new c program with
  | .ok s => s.seeds seeds
  | .error e => .error e

/-! ### Runs -/

/-- How a bounded piece of a run ends. -/
inductive RunOutcome where
  /-- R236: the status is no longer Running. -/
  | ended (s : State)
  /-- R108: still Running when the bound was used up; never reported as any status. -/
  | outOfFuel (s : State)
  /-- The model's step stopped; no Running state does this. -/
  | faulted (r : Fault)
  /-- The model's step refused; no Running state does this. -/
  | refused (r : Refusal)
  deriving DecidableEq, Repr

/-- R108 `run`: the step is repeated while the status is Running, here at most `fuel` times. -/
def run : Nat → State → RunOutcome
  | 0, s => if s.status = .running then .outOfFuel s else .ended s
  | fuel + 1, s =>
    if s.status = .running then
      match step s with
      | .next t => run fuel t
      | .fault r => .faulted r
      | .refused r => .refused r
    else .ended s

/-- R232: what `execute` and `resume` return. -/
inductive RunResult where
  | ok (status : Status) (value : Int)
  | fault (record : Option FaultRecord)
  deriving DecidableEq, Repr

/-- R232 `result(s)`: the fault record of a faulted core, else the status and `M[0]`. -/
def result (s : State) : RunResult :=
  if s.status = .faulted then .fault s.fault else .ok s.status (s.mem.read 0)

/-- What becomes of a host's call of `execute` or `resume`. -/
inductive CallOutcome where
  /-- The call returns. -/
  | returned (s : State) (r : RunResult)
  /-- R233: the call is not accepted. -/
  | rejected (e : HostError)
  /-- The run has not ended; `s` is where it stands. -/
  | outOfFuel (s : State)
  /-- The model's step stopped; no Running state does this. -/
  | faulted (r : Fault)
  /-- The model's step refused; no Running state does this. -/
  | refused (r : Refusal)
  deriving DecidableEq, Repr

/-- A run that has ended returns its `result`. -/
def returnFrom : RunOutcome → CallOutcome
  | .ended s => .returned s (result s)
  | .outOfFuel s => .outOfFuel s
  | .faulted r => .faulted r
  | .refused r => .refused r

/-- R230 `execute()`: starts a run from Ready; a no-op that returns the result otherwise. -/
def State.execute (fuel : Nat) (s : State) : CallOutcome :=
  match s.status with
  | .ready => returnFrom (run fuel { s with status := .running })
  | .running => .rejected .running
  | .suspended => .returned s (result s)
  | .terminated => .returned s (result s)
  | .faulted => .returned s (result s)

/-- R231 `resume()`: continues a run from Suspended; a no-op that returns the result otherwise. -/
def State.resume (fuel : Nat) (s : State) : CallOutcome :=
  match s.status with
  | .ready => .returned s (result s)
  | .running => .rejected .running
  | .suspended => returnFrom (run fuel { s with status := .running })
  | .terminated => .returned s (result s)
  | .faulted => .returned s (result s)

/-! ### Any call -/

/-- R240: the operations the host has on a core that exists. -/
inductive HostCall where
  | execute
  | resume
  | writeInput (v : Int)
  | readOutput
  | readMem (a : Int)
  | writeMem (a : Int) (v : Int)
  | clone
  deriving DecidableEq, Repr

/-- The state a call of `execute` or `resume` leaves; none while its run has not ended within the bound. -/
def CallOutcome.stateAfter (s : State) : CallOutcome → Option State
  | .returned t _ => some t
  | .rejected _ => some s
  | .outOfFuel _ => none
  | .faulted _ => none
  | .refused _ => none

/-- The state of the core after a host call; a call that is not carried out leaves it as it was. -/
def HostCall.stateAfter (fuel : Nat) (s : State) : HostCall → Option State
  | .execute => (s.execute fuel).stateAfter s
  | .resume => (s.resume fuel).stateAfter s
  | .writeInput v => match s.writeInput v with
    | .ok t => some t
    | .error _ => some s
  | .readOutput => match s.readOutput with
    | .ok (_, t) => some t
    | .error _ => some s
  | .readMem _ => some s
  | .writeMem a v => match s.writeMem a v with
    | .ok t => some t
    | .error _ => some s
  | .clone => match s.clone with
    | .ok (t, _) => some t
    | .error _ => some s

end Sys2Proof.Machine
end

