-- ==== Sys2Proof/Safety.lean ====
section
/-! DEFINITION. What holds of every state a core can be in, and which states a core can reach: the terms in which the
claims about runs are stated. -/

namespace Sys2Proof.Machine

/-- Every listed word of memory is a word at a legal address (10_state.md R25, 20_memory.md R50). -/
abbrev Memory.holdsWords (c : Config) (m : Memory) : Prop := ∀ p ∈ m, p.1 < c.memSize ∧ inWord c.wordBits p.2

/-- The shape R29 and the table of 60_exceptions.md R221 give a fault record. -/
abbrev FaultRecord.wellFormed (c : Config) (r : FaultRecord) : Prop :=
  inWord c.wordBits r.atIp
  ∧ (∀ w ∈ r.word, inWord c.wordBits w)
  ∧ (r.word = none ↔ r.cause = .outOfBounds ∧ r.param = 0)
  ∧ (∀ a ∈ r.addr, ¬ inRange c a)
  ∧ (r.addr.isSome = true ↔ r.cause = .outOfBounds)
  ∧ (r.cause = .outOfBounds → r.param ≤ 3)
  ∧ (r.cause = .immediateWrite → r.param = 1 ∨ r.param = 3)
  ∧ (r.cause = .illegalMode → 1 ≤ r.param ∧ r.param ≤ 4)
  ∧ (r.cause = .illegalOpcode ∨ r.cause = .arithOverflow → r.param = 0)

/-- The invariant of the machine: the parameters are admissible (R7, R8), memory has its canonical form and holds words at
legal addresses, the registers and the queues hold words (R7), there is a fault record exactly when the core is Faulted
(R29, R222), it is one of the faulting step and well formed, and a Ready core has executed nothing (R28). -/
abbrev State.Inv (s : State) : Prop :=
  s.cfg.valid
  ∧ s.mem.wf = true
  ∧ s.mem.holdsWords s.cfg
  ∧ inWord s.cfg.wordBits s.ip
  ∧ inWord s.cfg.wordBits s.rb
  ∧ (∀ v ∈ s.inq, inWord s.cfg.wordBits v)
  ∧ (∀ v ∈ s.outq, inWord s.cfg.wordBits v)
  ∧ (s.fault.isSome = true ↔ s.status = .faulted)
  ∧ (∀ r ∈ s.fault, r.atIp = s.ip ∧ r.wellFormed s.cfg)
  ∧ (s.status = .ready → s.ip = 0 ∧ s.rb = 0 ∧ s.outq = [])

/-- A state no fatal condition has been met in. -/
abbrev State.safe (s : State) : Prop := s.status ≠ .faulted

/-- The states a core with parameters `c` can be in, those inside a run among them: built by `new` (R270), set Running by
`execute` or `resume` (R230, R231), moved by steps (R108), changed by the host's calls between runs (R240). -/
inductive Reachable (c : Config) : State → Prop where
  | launched (program : List Int) (s : State) : State.new c program = .ok s → Reachable c s
  | started (s : State) : Reachable c s → s.status = .ready ∨ s.status = .suspended →
      Reachable c { s with status := .running }
  | stepped (s t : State) : Reachable c s → step s = .next t → Reachable c t
  | called (fuel : Nat) (k : HostCall) (s t : State) :
      Reachable c s → k.stateAfter fuel s = some t → Reachable c t

end Sys2Proof.Machine
end

