-- ==== Sys2Proof/Safety/Reference.lean ====
section
/-! DEFINITION. A second account of one step, written stage by stage as the pseudocode of 40_execution_cycle.md R101 to R104
stands, over raw words and digits, sharing nothing with the machine but the state, the reading and writing of one word of
memory, and `digit`. A claim says that the machine's step is this one; the other claims take their words from here. -/

namespace Sys2Proof.Reference

open Sys2Proof.Machine

/-- `raise Fault(cause, at=ip, word, param, addr)` (R15, R222). -/
def raise (s : State) (cause : FaultCause) (word : Option Int) (param : Nat) (addr : Option Int) : State :=
  { s with status := .faulted, fault := some ⟨cause, s.ip, word, param, addr⟩ }

/-- The arity column of R80; none for an illegal opcode (R81). -/
def arityOf (op : Nat) : Option Nat :=
  if op ∈ [1, 2, 7, 8] then some 3
  else if op ∈ [5, 6] then some 2
  else if op ∈ [3, 4, 9] then some 1
  else if op = 99 then some 0
  else none

/-- R77: whether parameter `i` of opcode `op` is its write parameter. -/
def isWrite (op i : Nat) : Bool := (op ∈ [1, 2, 7, 8] && i == 3) || (op == 3 && i == 1)

/-- `1..n`. -/
def upTo (n : Nat) : List Nat := (List.range n).map (· + 1)

/-- S5 for one parameter with mode digit `m` and parameter word `p`: `val(i)` (R102) or `addr(i)` (R103); or the state
after the fault. -/
def resolve (s : State) (w : Int) (write : Bool) (i m : Nat) (p : Int) : Except State Int :=
  if m = 1 then
    if write then .error (raise s .immediateWrite (some w) i none) else .ok p
  else
    let a := if m = 0 then p else p + s.rb
    if a < 0 ∨ a ≥ s.cfg.memSize then .error (raise s .outOfBounds (some w) i (some a))
    else if write then .ok a else .ok (s.mem.read a.toNat)

/-- S5: the parameters in ascending order, up to the first fault. -/
def resolveAll (s : State) (w : Int) (op : Nat) : List Nat → Except State (List Int)
  | [] => .ok []
  | i :: is =>
    match resolve s w (isWrite op i) i (digit w.toNat (i + 1)) (s.mem.read (s.ip + i).toNat) with
    | .error t => .error t
    | .ok x =>
      match resolveAll s w op is with
      | .error t => .error t
      | .ok xs => .ok (x :: xs)

/-- S6 and S7 for a write of `r` at `d` by an instruction of four words; an `r` that is no word overflows. -/
def writeResult (s : State) (w : Int) (d r : Int) : State :=
  if inWord s.cfg.wordBits r then { s with mem := s.mem.write d.toNat r, ip := s.ip + 4 }
  else raise s .arithOverflow (some w) 0 none

/-- S6 and S7: the effect column of R80, on the resolved parameters. -/
def effect (s : State) (w : Int) (op : Nat) (xs : List Int) : State :=
  match op, xs with
  | 1, [x, y, d] => writeResult s w d (x + y)
  | 2, [x, y, d] => writeResult s w d (x * y)
  | 3, [d] =>
    match s.inq with
    | [] => { s with status := .suspended }
    | v :: rest => { s with inq := rest, mem := s.mem.write d.toNat v, ip := s.ip + 2 }
  | 4, [x] => { s with outq := s.outq ++ [x], ip := s.ip + 2 }
  | 5, [x, y] => if x ≠ 0 then { s with ip := y } else { s with ip := s.ip + 3 }
  | 6, [x, y] => if x = 0 then { s with ip := y } else { s with ip := s.ip + 3 }
  | 7, [x, y, d] => { s with mem := s.mem.write d.toNat (if x < y then 1 else 0), ip := s.ip + 4 }
  | 8, [x, y, d] => { s with mem := s.mem.write d.toNat (if x = y then 1 else 0), ip := s.ip + 4 }
  | 9, [x] =>
    if inWord s.cfg.wordBits (s.rb + x) then { s with rb := s.rb + x, ip := s.ip + 2 }
    else raise s .arithOverflow (some w) 0 none
  | 99, [] => { s with status := .terminated }
  | _, _ => s

/-- R101, S1 to S7, for a Running core. -/
def step (s : State) : State :=
  if s.ip < 0 ∨ s.ip ≥ s.cfg.memSize then raise s .outOfBounds none 0 (some s.ip)
  else
    let w := s.mem.read s.ip.toNat
    if w < 0 then raise s .illegalOpcode (some w) 0 none
    else
      match arityOf (w.toNat % 100) with
      | none => raise s .illegalOpcode (some w) 0 none
      | some n =>
        match (upTo n).find? (fun i : Nat => decide (2 < digit w.toNat (i + 1))) with
        | some i => raise s .illegalMode (some w) i none
        | none =>
          if s.cfg.extraModeDigits = .fault ∧ w.toNat / 10 ^ (n + 2) ≠ 0 then
            raise s .illegalMode (some w) (n + 1) none
          else
            match (upTo n).find? (fun i : Nat => decide (s.ip + i ≥ s.cfg.memSize)) with
            | some i => raise s .outOfBounds (some w) i (some (s.ip + i))
            | none =>
              match resolveAll s w (w.toNat % 100) (upTo n) with
              | .error t => t
              | .ok xs => effect s w (w.toNat % 100) xs

/-- The exceptions every instruction rule shares, for opcode `op` of arity `n`: `IllegalMode` for the first mode digit 3 to 9,
and, with every mode legal and no extra digit faulting, `OutOfBounds` for the first parameter word outside memory. -/
def FetchExceptions (op n : Nat) : Prop :=
  ∀ (s : State) (w : Nat),
    s.status = .running → inRange s.cfg s.ip → s.mem.read s.ip.toNat = (w : Int) → w % 100 = op →
    (∀ i, 1 ≤ i → i ≤ n → (∀ j, 1 ≤ j → j < i → digit w (j + 1) ≤ 2) → 2 < digit w (i + 1) →
      Machine.step s = .next (raise s .illegalMode (some (w : Int)) i none))
    ∧ (∀ i, 1 ≤ i → i ≤ n → (∀ j, 1 ≤ j → j ≤ n → digit w (j + 1) ≤ 2) →
        (s.cfg.extraModeDigits = .fault → w / 10 ^ (n + 2) = 0) →
        (∀ j : Nat, 1 ≤ j → j < i → s.ip + j < s.cfg.memSize) → s.ip + i ≥ s.cfg.memSize →
        Machine.step s = .next (raise s .outOfBounds (some (w : Int)) i (some (s.ip + i))))

/-- What a rule of format F3 says of opcode `op`: its encoding, its exceptions in the order of R110, and its effect, where
`alu` gives the result, or none for `ArithOverflow`. -/
def ThreeOperandRule (op : Nat) (mk : Param → Param → Param → Instr)
    (alu : Config → Int → Int → Option Int) : Prop :=
  FetchExceptions op 3 ∧
  ∀ (s : State) (a b c : Param),
    encode (mk a b c) =
      [((op + 100 * a.mode.digit + 1000 * b.mode.digit + 10000 * c.mode.digit : Nat) : Int), a.raw, b.raw, c.raw]
    ∧ (∀ f, valueOf s 1 a = .error f → exec (mk a b c) s = .next (s.raise f))
    ∧ (∀ x f, valueOf s 1 a = .ok x → valueOf s 2 b = .error f → exec (mk a b c) s = .next (s.raise f))
    ∧ (∀ x y f, valueOf s 1 a = .ok x → valueOf s 2 b = .ok y → addressOf s 3 c = .error f →
        exec (mk a b c) s = .next (s.raise f))
    ∧ (∀ x y d, valueOf s 1 a = .ok x → valueOf s 2 b = .ok y → addressOf s 3 c = .ok d → alu s.cfg x y = none →
        exec (mk a b c) s = .next (raise s .arithOverflow s.faultWord 0 none))
    ∧ (∀ x y d r, valueOf s 1 a = .ok x → valueOf s 2 b = .ok y → addressOf s 3 c = .ok d → alu s.cfg x y = some r →
        exec (mk a b c) s = .next { s with mem := s.mem.write d r, ip := s.ip + 4 })

/-- What a rule of format F2 says of opcode `op`: its encoding, its exceptions in the order of R110, and its effect, where
`taken` says on which condition values the jump is taken. -/
def JumpRule (op : Nat) (mk : Param → Param → Instr) (taken : Int → Prop) : Prop :=
  FetchExceptions op 2 ∧
  ∀ (s : State) (a b : Param),
    encode (mk a b) = [((op + 100 * a.mode.digit + 1000 * b.mode.digit : Nat) : Int), a.raw, b.raw]
    ∧ (∀ f, valueOf s 1 a = .error f → exec (mk a b) s = .next (s.raise f))
    ∧ (∀ x f, valueOf s 1 a = .ok x → valueOf s 2 b = .error f → exec (mk a b) s = .next (s.raise f))
    ∧ (∀ x y, valueOf s 1 a = .ok x → valueOf s 2 b = .ok y → taken x → exec (mk a b) s = .next { s with ip := y })
    ∧ (∀ x y, valueOf s 1 a = .ok x → valueOf s 2 b = .ok y → ¬ taken x →
        exec (mk a b) s = .next { s with ip := s.ip + 3 })

end Sys2Proof.Reference
end

