-- ==== Sys2Proof/Certificates/Slice0/Obligations.lean ====
section
/-! DEFINITION. The statements about the machine, each a def Obligations.<Name> : Prop. Every statement holds for every state, and so
for every value of the parameters `WORD_BITS`, `MEM_SIZE` and `EXTRA_MODE_DIGITS` (log 1), unless it names a premise. A
docstring names the rule of spec/ a statement is about and, where the rule is marked there as a decision of the spec itself,
that decision (D<n> of 92_eei_decisions.md). -/

open Sys2Proof Sys2Proof.Machine

/-! ### Launch and reset -/

/-- The model's choice of one reset state (log 2, log 5): it is what `new` builds from the empty program. -/
def Obligations.ResetIsLaunchOfEmptyProgram : Prop :=
  State.new Config.standard [] = .ok State.reset

/-- 10_state.md R34: the reset value of every component, for every program that `new` can store (that there is a fault
record, `none` at reset, is the spec's own decision D11). -/
def Obligations.NewEstablishesResetValues : Prop :=
  ∀ (c : Config) (program : List Int),
    program.length ≤ c.memSize → (∀ v ∈ program, inWord c.wordBits v) →
    ∃ s, State.new c program = .ok s
      ∧ s.cfg = c
      ∧ (∀ (a : Nat) (h : a < program.length), s.mem.read a = program[a])
      ∧ (∀ a : Nat, program.length ≤ a → a < c.memSize → s.mem.read a = 0)
      ∧ s.ip = 0 ∧ s.rb = 0 ∧ s.status = .ready ∧ s.inq = [] ∧ s.outq = [] ∧ s.fault = none

/-- The two `require` lines of 70_reset_and_hazards.md, the spec's own decision D25: exactly the programs that memory can
hold are accepted. -/
def Obligations.NewRefusesWhatMemoryCannotHold : Prop :=
  ∀ (c : Config) (program : List Int),
    (∃ s, State.new c program = .ok s) ↔ (program.length ≤ c.memSize ∧ ∀ v ∈ program, inWord c.wordBits v)

/-- The reset state meets the invariant (its parameters are the model's choice, log 2). -/
def Obligations.ResetMeetsInvariant : Prop := State.reset.Inv

/-- Every launch state, seeds included, meets the invariant. -/
def Obligations.LaunchMeetsInvariant : Prop :=
  ∀ (c : Config) (program : List Int) (seeds : List Seed) (s : State),
    c.valid → launch c program seeds = .ok s → s.Inv ∧ s.cfg = c

/-! ### The invariant -/

/-- From every state that meets the invariant, a step gives a state that meets it, under the same parameters. -/
def Obligations.StepKeepsInvariant : Prop :=
  ∀ s t : State, s.Inv → step s = .next t → t.Inv ∧ t.cfg = s.cfg

/-- Every host call keeps the invariant. -/
def Obligations.HostCallsKeepInvariant : Prop :=
  ∀ (fuel : Nat) (k : HostCall) (s t : State), s.Inv → k.stateAfter fuel s = some t → t.Inv ∧ t.cfg = s.cfg

/-- Whatever the program, the host's calls and the number of steps: every state a core reaches meets the invariant and has
the parameters the core was built with. -/
def Obligations.ReachableStatesMeetInvariant : Prop :=
  ∀ (c : Config) (s : State), c.valid → Reachable c s → s.Inv ∧ s.cfg = c

/-! ### Encoding -/

/-- Decoding the encoding of any instruction gives it back, with every operand, and leaves the words after it. -/
def Obligations.DecodeOfEncode : Prop :=
  ∀ (x : ExtraModeDigits) (i : Instr) (rest : List Int), decode x (encode i ++ rest) = .ok (i, rest)

/-- The other direction: where the instruction word has no digit above the mode digits of its own parameters, the words
decoded are the encoding of the instruction they decode to. -/
def Obligations.EncodeOfDecode : Prop :=
  ∀ (x : ExtraModeDigits) (w : Int) (ws rest : List Int) (i : Instr),
    decode x (w :: ws) = .ok (i, rest) → w.toNat / 10 ^ (i.arity + 2) = 0 → encode i ++ rest = w :: ws

/-- The same round trip through the bits of a 64-bit word (the layout is the model's, log 9): every instruction whose
parameter words are words. -/
def Obligations.TableWordOfEncode : Prop :=
  ∀ i : Instr, i.wellFormed 64 = true →
    decodeTableWord (64 * i.length) (bitsOfWords 64 (encode i)) = some i

/-- The encoding formula of 30_encoding.md R78, read from each instruction's encoding line: the digits of the parameters the
opcode has, then the parameter words in order. -/
def Obligations.EncodingFormula : Prop :=
  ∀ a b c : Param,
    (∀ mk ∈ [(1, Instr.add), (2, Instr.mul), (7, Instr.lt), (8, Instr.eq)],
      encode (mk.2 a b c) =
        [((mk.1 + 100 * a.mode.digit + 1000 * b.mode.digit + 10000 * c.mode.digit : Nat) : Int), a.raw, b.raw, c.raw])
    ∧ (∀ mk ∈ [(5, Instr.jt), (6, Instr.jf)],
      encode (mk.2 a b) = [((mk.1 + 100 * a.mode.digit + 1000 * b.mode.digit : Nat) : Int), a.raw, b.raw])
    ∧ (∀ mk ∈ [(3, Instr.inp), (4, Instr.out), (9, Instr.arb)],
      encode (mk.2 a) = [((mk.1 + 100 * a.mode.digit : Nat) : Int), a.raw])
    ∧ encode .hlt = [99]

/-- 30_encoding.md R74: the length of an instruction depends on the opcode alone, as the table of formats has it, and the
decoder takes just the words of that length. That the instruction word is not negative is the spec's own decision D8
(R72, log 13). -/
def Obligations.LengthDependsOnOpcodeAlone : Prop :=
  ∀ (x : ExtraModeDigits) (w : Int) (ws rest : List Int) (i : Instr),
    decode x (w :: ws) = .ok (i, rest) →
    0 ≤ w
    ∧ (w % 100 = 99 ∧ i.length = 1
      ∨ (w % 100 = 3 ∨ w % 100 = 4 ∨ w % 100 = 9) ∧ i.length = 2
      ∨ (w % 100 = 5 ∨ w % 100 = 6) ∧ i.length = 3
      ∨ (w % 100 = 1 ∨ w % 100 = 2 ∨ w % 100 = 7 ∨ w % 100 = 8) ∧ i.length = 4)
    ∧ ws = i.params.map Param.raw ++ rest
    ∧ i.length = 1 + i.params.length

/-- The digits above the mode digits of the instruction's own parameters (30_encoding.md R76, the spec's own decision D7):
under Ignore they have no effect, under Fault a non-zero one is `IllegalMode` of the parameter after the last. -/
def Obligations.ExtraDigitsFollowParameter : Prop :=
  ∀ (w n : Nat) (ws : List Int), Reference.arityOf (w % 100) = some n →
    decode .ignore ((w : Int) :: ws) = decode .ignore (((w % 10 ^ (n + 2) : Nat) : Int) :: ws)
    ∧ (w / 10 ^ (n + 2) = 0 → decode .fault ((w : Int) :: ws) = decode .ignore ((w : Int) :: ws))
    ∧ (w / 10 ^ (n + 2) ≠ 0 → (∀ i, 1 ≤ i → i ≤ n → digit w (i + 1) ≤ 2) →
        decode .fault ((w : Int) :: ws) = .error (.illegalMode (n + 1)))

/-- One word of every opcode, written out from the spec's encodings, decodes to the instruction it stands for. -/
def Obligations.SampleWordsDecode : Prop :=
  decode .ignore [21001, 9, 3, -1] = .ok (.add ⟨.position, 9⟩ ⟨.immediate, 3⟩ ⟨.relative, -1⟩, [])
  ∧ decode .ignore [1002, 4, 3, 4, 33] = .ok (.mul ⟨.position, 4⟩ ⟨.immediate, 3⟩ ⟨.position, 4⟩, [33])
  ∧ decode .ignore [203, 5] = .ok (.inp ⟨.relative, 5⟩, [])
  ∧ decode .ignore [104, -7] = .ok (.out ⟨.immediate, -7⟩, [])
  ∧ decode .ignore [2105, 1, 5] = .ok (.jt ⟨.immediate, 1⟩ ⟨.relative, 5⟩, [])
  ∧ decode .ignore [1006, 5, 6] = .ok (.jf ⟨.position, 5⟩ ⟨.immediate, 6⟩, [])
  ∧ decode .ignore [1107, 3, 8, 5] = .ok (.lt ⟨.immediate, 3⟩ ⟨.immediate, 8⟩ ⟨.position, 5⟩, [])
  ∧ decode .ignore [20108, 5, 6, 7] = .ok (.eq ⟨.immediate, 5⟩ ⟨.position, 6⟩ ⟨.relative, 7⟩, [])
  ∧ decode .ignore [209, 1] = .ok (.arb ⟨.relative, 1⟩, [])
  ∧ decode .ignore [99] = .ok (.hlt, [])

/-- 30_encoding.md R82, derived there: for each opcode, the number of mode combinations that execute without an encoding
fault; 99 in all. -/
def Obligations.NinetyNineExecutableForms : Prop :=
  let ms := [Mode.position, Mode.immediate, Mode.relative]
  let p (m : Mode) : Param := ⟨m, 0⟩
  let f3 (mk : Param → Param → Param → Instr) :=
    (ms.flatMap fun a => ms.flatMap fun b => ms.map fun c => mk (p a) (p b) (p c)).countP Instr.executableForm
  let f2 (mk : Param → Param → Instr) :=
    (ms.flatMap fun a => ms.map fun b => mk (p a) (p b)).countP Instr.executableForm
  let f1 (mk : Param → Instr) := (ms.map fun a => mk (p a)).countP Instr.executableForm
  f3 .add = 18 ∧ f3 .mul = 18 ∧ f3 .lt = 18 ∧ f3 .eq = 18 ∧ f1 .inp = 2 ∧ f1 .out = 3 ∧ f1 .arb = 3
  ∧ f2 .jt = 9 ∧ f2 .jf = 9 ∧ [Instr.hlt].countP Instr.executableForm = 1

/-- 30_encoding.md R91, the spec's own notation (D21): the three pseudo-instructions, their encodings for operands of every
mode (MOV's by the formula of R78), and their effects. A jump target is taken unchecked (D13). -/
def Obligations.PseudoInstructions : Prop :=
  (∀ t : Int, encode (jmp ⟨.immediate, t⟩) = [1105, 1, t])
  ∧ (∀ t : Param, encode (jmp t) = [((105 + 1000 * t.mode.digit : Nat) : Int), 1, t.raw])
  ∧ (∀ src dst : Param,
      encode (mov src dst) =
        [((1001 + 100 * src.mode.digit + 10000 * dst.mode.digit : Nat) : Int), src.raw, 0, dst.raw])
  ∧ encode nop = [1106, 1, 0]
  ∧ (∀ (s : State) (t : Int), exec (jmp ⟨.immediate, t⟩) s = .next { s with ip := t })
  ∧ (∀ (s : State) (t : Param) (y : Int), valueOf s 2 t = .ok y → exec (jmp t) s = .next { s with ip := y })
  ∧ (∀ s : State, exec nop s = .next { s with ip := s.ip + 3 })
  ∧ (∀ (s : State) (src dst : Param) (x : Int) (d : Nat),
      valueOf s 1 src = .ok x → addressOf s 3 dst = .ok d → inWord s.cfg.wordBits x →
      exec (mov src dst) s = .next { s with mem := s.mem.write d x, ip := s.ip + 4 })

/-- 30_encoding.md R92, the spec's own notation (D21): disassembly shows an encoded instruction as that instruction and goes
on after it, shows a word with an illegal verdict of R83 (a negative word, a word of no opcode, and every other word the
decoder rejects as `IllegalOpcode` or `IllegalMode`) as data and goes on with the next word; a bound as long as the tape,
which `listing` takes, is as good as any longer one. -/
def Obligations.ListingShowsInstructions : Prop :=
  (∀ (x : ExtraModeDigits) (i : Instr) (n : Nat) (rest : List Int),
    disassemble x (n + 1) (encode i ++ rest) = .instr i :: disassemble x n rest)
  ∧ (∀ (x : ExtraModeDigits) (w : Int) (n : Nat) (rest : List Int),
      w < 0 ∨ Reference.arityOf (w.toNat % 100) = none →
      disassemble x (n + 1) (w :: rest) = .data w :: disassemble x n rest)
  ∧ (∀ (x : ExtraModeDigits) (w : Int) (n : Nat) (rest : List Int),
      decode x (w :: rest) = .error .illegalOpcode ∨ (∃ i, decode x (w :: rest) = .error (.illegalMode i)) →
      disassemble x (n + 1) (w :: rest) = .data w :: disassemble x n rest)
  ∧ (∀ (x : ExtraModeDigits) (tape : List Int) (n : Nat), tape.length ≤ n → disassemble x n tape = listing x tape)

/-! ### The step -/

/-- When memory at the instruction pointer holds the encoding of an instruction, a step is that instruction's meaning at
that state: the step adds nothing around it. -/
def Obligations.StepRunsDecodedInstruction : Prop :=
  (∀ (s : State) (i : Instr) (rest : List Int), s.status = .running →
    decode s.cfg.extraModeDigits (wordsFrom s s.ip maxLength) = .ok (i, rest) → step s = exec i s)
  ∧ (∀ (s : State) (i : Instr), s.status = .running →
      (∀ (k : Nat) (h : k < (encode i).length), inRange s.cfg (s.ip + k) ∧ s.mem.read (s.ip + k).toNat = (encode i)[k]) →
      step s = exec i s)

/-- A step is defined only for a Running core (40_execution_cycle.md R100); the model stops elsewhere, its own choice
(log 6). -/
def Obligations.StepNeedsRunning : Prop :=
  ∀ s : State, s.status ≠ .running → step s = .fault (.notRunning s.status)

/-- The step is the stages S1 to S7 of 40_execution_cycle.md (R101 to R104 with the order of R110), for every Running core.
The order of the checks, the overflow, the exact address sums and the fault record are the spec's own decisions D4, D5, D9,
D10, D11. -/
def Obligations.StepFollowsTheStages : Prop :=
  ∀ s : State, s.status = .running → step s = .next (Reference.step s)

/-- 40_execution_cycle.md R100 (D1): a step of a Running core ends in one of four ways, and only `IN` on an empty queue
suspends, only `HLT` halts. -/
def Obligations.RunningStepEndsInOneOfFourWays : Prop :=
  ∀ s : State, s.status = .running → ∃ t, step s = .next t ∧
    (t.status = .running
    ∨ (t.status = .suspended ∧ s.inq = [] ∧ ∃ a, fetchInstr s = .ok (.inp a))
    ∨ (t.status = .terminated ∧ fetchInstr s = .ok .hlt)
    ∨ t.status = .faulted)

/-- 40_execution_cycle.md R105 and 60_exceptions.md R222 (D9, D11): a step that faults changes the status and the fault
record only, and the record names the faulting instruction. -/
def Obligations.FaultsArePrecise : Prop :=
  ∀ s t : State, s.status = .running → step s = .next t → t.status = .faulted →
    ∃ r : FaultRecord, t = { s with status := .faulted, fault := some r }
      ∧ r.atIp = s.ip
      ∧ (r.word = none → r.cause = .outOfBounds ∧ r.param = 0 ∧ r.addr = some s.ip ∧ ¬ inRange s.cfg s.ip)
      ∧ (∀ w, r.word = some w → inRange s.cfg s.ip ∧ w = s.mem.read s.ip.toNat)

/-- 10_state.md R23 and stage S1 (D5, D13): any word is a legal instruction address that memory has; outside memory the fetch
itself faults, with no instruction word. -/
def Obligations.FetchOutsideMemoryFaults : Prop :=
  ∀ s : State, s.status = .running → (s.ip < 0 ∨ s.ip ≥ s.cfg.memSize) →
    step s = .next (Reference.raise s .outOfBounds none 0 (some s.ip))

/-- 30_encoding.md R72, R81 (D8): a negative instruction word, and one whose low two digits select no row of the opcode map,
fault; a padding word, 0, is one of these. -/
def Obligations.IllegalOpcodesFault : Prop :=
  ∀ (s : State) (w : Int), s.status = .running → inRange s.cfg s.ip → s.mem.read s.ip.toNat = w →
    (w < 0 ∨ w % 100 = 0 ∨ (10 ≤ w % 100 ∧ w % 100 ≤ 98)) →
    step s = .next (Reference.raise s .illegalOpcode (some w) 0 none)

/-- 30_encoding.md R73 and stages S3, S4 (D6, D9), for every opcode: the first illegal mode digit faults; then the first
parameter word outside memory. -/
def Obligations.ModeDigitsAndParameterWordsAreChecked : Prop :=
  ∀ op n : Nat, Reference.arityOf op = some n → Reference.FetchExceptions op n

/-! ### Memory -/

/-- What a write of one word does (00_scope.md R13, 20_memory.md R53): that word is replaced and no other; and, the model's
choice (log 4), equal contents are one and the same memory. -/
def Obligations.MemoryWriteReplacesOneWord : Prop :=
  (∀ (m : Memory) (a : Nat) (v : Int), m.wf = true →
    (m.write a v).wf = true ∧ (m.write a v).read a = v ∧ ∀ b, b ≠ a → (m.write a v).read b = m.read b)
  ∧ (∀ m m' : Memory, m.wf = true → m'.wf = true → (∀ a, m.read a = m'.read a) → m = m')

/-! ### Operands and the ALU -/

/-- Value-of, 40_execution_cycle.md R102 (exact address sums, D5). -/
def Obligations.ValueOfReadParameter : Prop :=
  ∀ (s : State) (i : Nat) (p : Int),
    valueOf s i ⟨.immediate, p⟩ = .ok p
    ∧ (0 ≤ p → p < s.cfg.memSize → valueOf s i ⟨.position, p⟩ = .ok (s.mem.read p.toNat))
    ∧ (p < 0 ∨ p ≥ s.cfg.memSize → valueOf s i ⟨.position, p⟩ = .error ⟨.outOfBounds, i, some p⟩)
    ∧ (0 ≤ p + s.rb → p + s.rb < s.cfg.memSize → valueOf s i ⟨.relative, p⟩ = .ok (s.mem.read (p + s.rb).toNat))
    ∧ (p + s.rb < 0 ∨ p + s.rb ≥ s.cfg.memSize →
        valueOf s i ⟨.relative, p⟩ = .error ⟨.outOfBounds, i, some (p + s.rb)⟩)

/-- Address-of, 40_execution_cycle.md R103 (exact address sums, D5). -/
def Obligations.AddressOfWriteParameter : Prop :=
  ∀ (s : State) (i : Nat) (p : Int),
    addressOf s i ⟨.immediate, p⟩ = .error ⟨.immediateWrite, i, none⟩
    ∧ (0 ≤ p → p < s.cfg.memSize → addressOf s i ⟨.position, p⟩ = .ok p.toNat)
    ∧ (p < 0 ∨ p ≥ s.cfg.memSize → addressOf s i ⟨.position, p⟩ = .error ⟨.outOfBounds, i, some p⟩)
    ∧ (0 ≤ p + s.rb → p + s.rb < s.cfg.memSize → addressOf s i ⟨.relative, p⟩ = .ok (p + s.rb).toNat)
    ∧ (p + s.rb < 0 ∨ p + s.rb ≥ s.cfg.memSize →
        addressOf s i ⟨.relative, p⟩ = .error ⟨.outOfBounds, i, some (p + s.rb)⟩)

/-- The ALU, 40_execution_cycle.md R109: exact integer arithmetic, signed comparison, and `ArithOverflow` (the spec's own
decision D4) exactly where a stored result is no word. -/
def Obligations.AluFunctions : Prop :=
  ∀ (c : Config) (x y : Int),
    (inWord c.wordBits (x + y) → aluAdd c x y = .ok (x + y) ∧ baseAdd c x y = .ok (x + y))
    ∧ (¬ inWord c.wordBits (x + y) →
        aluAdd c x y = .error ⟨.arithOverflow, 0, none⟩ ∧ baseAdd c x y = .error ⟨.arithOverflow, 0, none⟩)
    ∧ (inWord c.wordBits (x * y) → aluMul c x y = .ok (x * y))
    ∧ (¬ inWord c.wordBits (x * y) → aluMul c x y = .error ⟨.arithOverflow, 0, none⟩)
    ∧ aluLt c x y = .ok (if x < y then 1 else 0)
    ∧ aluEq c x y = .ok (if x = y then 1 else 0)

/-! ### The instructions -/

/-- ADD, 41_arithmetic.md R120, with the spec's own decisions D4 on overflow and D9, D11 on the order of the checks and the
fault record: where the operands resolve and the exact sum is a word, the instruction completes with the sum stored. -/
def Obligations.AddRule : Prop :=
  Reference.ThreeOperandRule 1 .add (fun c x y => if inWord c.wordBits (x + y) then some (x + y) else none)

/-- MUL, 41_arithmetic.md R125, with the spec's own decisions D4, D9, D11. -/
def Obligations.MulRule : Prop :=
  Reference.ThreeOperandRule 2 .mul (fun c x y => if inWord c.wordBits (x * y) then some (x * y) else none)

/-- LT, 44_compare.md R180: it cannot overflow. (The order of the checks and the fault record are the spec's own decisions
D9, D11.) -/
def Obligations.LtRule : Prop :=
  Reference.ThreeOperandRule 7 .lt (fun _ x y => some (if x < y then 1 else 0))

/-- EQ, 44_compare.md R185: it cannot overflow. (The order of the checks and the fault record are the spec's own decisions
D9, D11.) -/
def Obligations.EqRule : Prop :=
  Reference.ThreeOperandRule 8 .eq (fun _ x y => some (if x = y then 1 else 0))

/-- JT, 43_jumps.md R160: any target is taken unchecked (the spec's own decision D13; order and record D9, D11). -/
def Obligations.JtRule : Prop := Reference.JumpRule 5 .jt (fun x => x ≠ 0)

/-- JF, 43_jumps.md R165 (D13, D9, D11). -/
def Obligations.JfRule : Prop := Reference.JumpRule 6 .jf (fun x => x = 0)

/-- IN, 42_io.md R140: the destination is resolved before the queue is tested (the spec's own decision D10; order
and record D9, D11); then the core suspends with nothing else changed, or completes. -/
def Obligations.InRule : Prop :=
  Reference.FetchExceptions 3 1 ∧
  ∀ (s : State) (a : Param),
    encode (.inp a) = [((3 + 100 * a.mode.digit : Nat) : Int), a.raw]
    ∧ (∀ f, addressOf s 1 a = .error f → exec (.inp a) s = .next (s.raise f))
    ∧ (∀ d, addressOf s 1 a = .ok d → s.inq = [] → exec (.inp a) s = .next { s with status := .suspended })
    ∧ (∀ d v rest, addressOf s 1 a = .ok d → s.inq = v :: rest →
        exec (.inp a) s = .next { s with inq := rest, mem := s.mem.write d v, ip := s.ip + 2 })

/-- OUT, 42_io.md R145 (the unbounded queue is the spec's own decision D18; order and record D9, D11). -/
def Obligations.OutRule : Prop :=
  Reference.FetchExceptions 4 1 ∧
  ∀ (s : State) (a : Param),
    encode (.out a) = [((4 + 100 * a.mode.digit : Nat) : Int), a.raw]
    ∧ (∀ f, valueOf s 1 a = .error f → exec (.out a) s = .next (s.raise f))
    ∧ (∀ x, valueOf s 1 a = .ok x → exec (.out a) s = .next { s with outq := s.outq ++ [x], ip := s.ip + 2 })

/-- ARB, 45_base_and_halt.md R200, with the spec's own decisions D4, D9, D11: the operand is read with the old base. -/
def Obligations.ArbRule : Prop :=
  Reference.FetchExceptions 9 1 ∧
  ∀ (s : State) (a : Param),
    encode (.arb a) = [((9 + 100 * a.mode.digit : Nat) : Int), a.raw]
    ∧ (∀ f, valueOf s 1 a = .error f → exec (.arb a) s = .next (s.raise f))
    ∧ (∀ x, valueOf s 1 a = .ok x → ¬ inWord s.cfg.wordBits (s.rb + x) →
        exec (.arb a) s = .next (Reference.raise s .arithOverflow s.faultWord 0 none))
    ∧ (∀ x, valueOf s 1 a = .ok x → inWord s.cfg.wordBits (s.rb + x) →
        exec (.arb a) s = .next { s with rb := s.rb + x, ip := s.ip + 2 })

/-- HLT, 45_base_and_halt.md R205 (`ip` unchanged is the spec's own decision D12): it completes in every state; a word of
opcode 99 faults only for its extra digits, under that setting (D7). -/
def Obligations.HltRule : Prop :=
  encode .hlt = [99]
  ∧ (∀ s : State, exec .hlt s = .next { s with status := .terminated })
  ∧ (∀ (s : State) (w : Nat), s.status = .running → inRange s.cfg s.ip → s.mem.read s.ip.toNat = (w : Int) → w % 100 = 99 →
      step s = if s.cfg.extraModeDigits = .fault ∧ w / 100 ≠ 0 then .next (Reference.raise s .illegalMode (some (w : Int)) 1 none)
        else .next { s with status := .terminated })

/-! ### Frames -/

/-- ADD, MUL, LT, EQ change no word of memory but the one at the address of `c`, which is the address-of of their third
parameter at the state before; nothing else but `ip`, and, where they fault, only the status and the fault record (precise
faults and the record are the spec's own decisions D9, D11; log 14). -/
def Obligations.StoringInstructionsFrame : Prop :=
  ∀ (a b c : Param) (i : Instr), i ∈ [.add a b c, .mul a b c, .lt a b c, .eq a b c] →
    ∀ s t : State, exec i s = .next t →
      t.cfg = s.cfg ∧ t.rb = s.rb ∧ t.inq = s.inq ∧ t.outq = s.outq
      ∧ (t.status = s.status ∧ t.fault = s.fault ∨ t = { s with status := .faulted, fault := t.fault })
      ∧ (∀ d, addressOf s 3 c = .ok d → ∀ e, e ≠ d → t.mem.read e = s.mem.read e)
      ∧ (∀ f, addressOf s 3 c = .error f → t.mem = s.mem)

/-- IN changes no word of memory but the one at the address-of of its parameter, no queue but the input queue, from which it
takes the oldest word when it completes, and `ip`; where it suspends only the status, where it faults only the status and
the fault record (precise faults and the record are the spec's own decisions D9, D11; log 14). -/
def Obligations.InFrame : Prop :=
  ∀ (a : Param) (s t : State), exec (.inp a) s = .next t →
    t.cfg = s.cfg ∧ t.rb = s.rb ∧ t.outq = s.outq
    ∧ (t.status = s.status ∧ t.fault = s.fault ∧ t.inq = s.inq.tail
      ∨ t = { s with status := .suspended } ∧ s.inq = []
      ∨ t = { s with status := .faulted, fault := t.fault })
    ∧ (∀ d, addressOf s 1 a = .ok d → ∀ e, e ≠ d → t.mem.read e = s.mem.read e)
    ∧ (∀ f, addressOf s 1 a = .error f → t.mem = s.mem)

/-- OUT, JT, JF, ARB and HLT store nothing: every word of memory reads as before, the input queue is unchanged, the output
queue is for all but OUT, the base for all but ARB, and status and fault record for all but HLT unless the instruction
faults, when nothing else changes (precise faults and the record are the spec's own decisions D9, D11, log 14; that HLT keeps
`ip` is D12). -/
def Obligations.NonStoringInstructionsFrame : Prop :=
  ∀ (a b : Param) (i : Instr), i ∈ [.out a, .jt a b, .jf a b, .arb a, .hlt] →
    ∀ s t : State, exec i s = .next t →
      t.cfg = s.cfg ∧ t.inq = s.inq ∧ (∀ e, t.mem.read e = s.mem.read e)
      ∧ (i ≠ .out a → t.outq = s.outq) ∧ (i ≠ .arb a → t.rb = s.rb)
      ∧ (i = .hlt → t = { s with status := .terminated })
      ∧ (i ≠ .hlt → t.status = s.status ∧ t.fault = s.fault ∨ t = { s with status := .faulted, fault := t.fault })

/-! ### Rules of the whole machine -/

/-- R24: only ARB writes the relative base and only the Relative mode reads it; it starts at 0, it may be any word with no
fault until an address is resolved; no host operation that is not a run writes it, and no answer of one depends on it (clone
copies it unread). -/
def Obligations.RelativeBaseIsPrivateToArbAndRelativeMode : Prop :=
  (∀ s t : State, step s = .next t → t.rb ≠ s.rb → ∃ a, fetchInstr s = .ok (.arb a))
  ∧ (∀ (i : Instr) (s : State) (r : Int), (∀ p ∈ i.params, p.mode ≠ .relative) → (∀ a, i ≠ .arb a) →
      ∃ t, exec i s = .next t ∧ exec i { s with rb := r } = .next { t with rb := r })
  ∧ (∀ (s : State) (r : Int), fetchInstr { s with rb := r } = fetchInstr s)
  ∧ (∀ (c : Config) (program : List Int) (s : State), State.new c program = .ok s → s.rb = 0)
  ∧ (∀ (s : State) (x : Int), inWord s.cfg.wordBits (s.rb + x) →
      exec (.arb ⟨.immediate, x⟩) s = .next { s with rb := s.rb + x, ip := s.ip + 2 })
  ∧ (∀ (fuel : Nat) (k : HostCall) (s t : State), k ≠ .execute → k ≠ .resume → k.stateAfter fuel s = some t → t.rb = s.rb)
  ∧ (∀ (s : State) (r : Int) (a : Int),
      ({ s with rb := r } : State).readMem a = s.readMem a
      ∧ result { s with rb := r } = result s
      ∧ ({ s with rb := r } : State).readOutput = s.readOutput.map (fun (v, t) => (v, { t with rb := r })))
  ∧ (∀ (s : State) (r : Int) (a v : Int),
      ({ s with rb := r } : State).writeInput v = (s.writeInput v).map (fun t => { t with rb := r })
      ∧ ({ s with rb := r } : State).writeMem a v = (s.writeMem a v).map (fun t => { t with rb := r })
      ∧ ({ s with rb := r } : State).clone = s.clone.map (fun (t, u) => ({ t with rb := r }, { u with rb := r })))

/-- R141: the input queue is first-in first-out. The host appends at its end; a completed IN removes the oldest word and puts
that word at its destination; nothing else changes it, and a suspended IN consumes nothing. -/
def Obligations.InputIsConsumedOnceInOrder : Prop :=
  (∀ (s t : State) (v : Int), s.writeInput v = .ok t → t = { s with inq := s.inq ++ [v] })
  ∧ (∀ s t : State, step s = .next t →
      t.inq = s.inq
      ∨ ∃ a d v, fetchInstr s = .ok (.inp a) ∧ addressOf s 1 a = .ok d ∧ s.inq = v :: t.inq
          ∧ t.mem = s.mem.write d v ∧ t.status = .running)
  ∧ (∀ s t : State, step s = .next t → t.status = .suspended → t.inq = s.inq)
  ∧ (∀ (s : State) (a : Param) (d : Nat) (v : Int) (rest : List Int), s.status = .running → fetchInstr s = .ok (.inp a) →
      addressOf s 1 a = .ok d → s.inq = v :: rest →
      step s = .next { s with inq := rest, mem := s.mem.write d v, ip := s.ip + 2 })
  ∧ (∀ (fuel : Nat) (k : HostCall) (s t : State), k ≠ .execute → k ≠ .resume → (∀ v, k ≠ .writeInput v) →
      k.stateAfter fuel s = some t → t.inq = s.inq)

/-- The output queue (10_state.md R27, 60_exceptions.md R242; unbounded and empty-indicator by the spec's own decisions D14,
D18): only OUT appends, one word at its end, and only the host's `read_output` removes, the oldest word. -/
def Obligations.OutputIsProducedInOrder : Prop :=
  (∀ s t : State, step s = .next t →
    t.outq = s.outq ∨ ∃ a x, fetchInstr s = .ok (.out a) ∧ valueOf s 1 a = .ok x ∧ t.outq = s.outq ++ [x])
  ∧ (∀ (fuel : Nat) (k : HostCall) (s t : State), k ≠ .execute → k ≠ .resume → k.stateAfter fuel s = some t →
      t.outq = s.outq ∨ k = .readOutput ∧ t = { s with outq := s.outq.tail })

/-- What stands in the output queue never influences the core (10_state.md R35: read by the host alone): with any words in
front of it, a step does the same and keeps them. -/
def Obligations.OutputNeverInfluencesTheCore : Prop :=
  ∀ (s t : State) (q : List Int), step s = .next t →
    step { s with outq := q ++ s.outq } = .next { t with outq := q ++ t.outq }

/-- The time at which input is supplied does not matter (derived from 40_execution_cycle.md R107 and 42_io.md R141, R142): a
run that suspends and is resumed after more input ends as the run that had all the input from the start. -/
def Obligations.InputTimingDoesNotMatter : Prop :=
  ∀ (n m : Nat) (s t u : State) (q : List Int), s.status = .running →
    run n s = .ended t → t.status = .suspended →
    run m { t with inq := t.inq ++ q, status := .running } = .ended u →
    run (n + m) { s with inq := s.inq ++ q } = .ended u

/-! ### Runs and the host -/

/-- R108: a run repeats the step while the status is Running and ends when a step suspends, halts or faults; it may never
end; a bound that is used up is reported as such and as nothing else, and a larger bound does not change how a run ends. -/
def Obligations.RunRepeatsTheStep : Prop :=
  (∀ (n : Nat) (s : State), s.status ≠ .running → run n s = .ended s)
  ∧ (∀ (n : Nat) (s : State), s.status = .running → ∃ t, step s = .next t ∧ run (n + 1) s = run n t)
  ∧ (∀ (n : Nat) (s t : State), run n s = .outOfFuel t → t.status = .running)
  ∧ (∀ (n : Nat) (s t : State), run n s = .ended t →
      t.status ≠ .running
      ∧ (s.status = .running → t.status = .suspended ∨ t.status = .terminated ∨ t.status = .faulted))
  ∧ (∀ (n k : Nat) (s t : State), run n s = .ended t → run (n + k) s = .ended t)
  ∧ (∃ s : State, s.Inv ∧ ∀ n : Nat, run n s = .outOfFuel s)

/-- R236: the end of a run. A run ends exactly when the status is Suspended, Terminated or Faulted, in no other way; a
suspended run is continued by `resume`; a terminated or faulted core never steps again, whatever the host calls; and a
run that has not ended returns nothing to the host. -/
def Obligations.RunEndsSuspendedTerminatedOrFaulted : Prop :=
  (∀ (n : Nat) (s : State), s.status = .running →
    (∃ t, run n s = .ended t ∧ (t.status = .suspended ∨ t.status = .terminated ∨ t.status = .faulted))
    ∨ (∃ t, run n s = .outOfFuel t ∧ t.status = .running))
  ∧ (∀ (n : Nat) (s : State), s.status = .suspended → s.resume n = returnFrom (run n { s with status := .running }))
  ∧ (∀ (n : Nat) (k : HostCall) (s t : State), s.status = .terminated ∨ s.status = .faulted →
      k.stateAfter n s = some t → t.status = s.status ∧ t.ip = s.ip ∧ ∀ u, step t ≠ .next u)
  ∧ (∀ (n : Nat) (s t : State), s.status = .ready → run n { s with status := .running } = .outOfFuel t →
      s.execute n = .outOfFuel t)

/-- R230: `execute` starts a run from Ready, and in any other status changes nothing; between runs it returns the
result. -/
def Obligations.ExecuteStartsARunFromReady : Prop :=
  ∀ (n : Nat) (s : State),
    (s.status = .ready → ∀ t, run n { s with status := .running } = .ended t → s.execute n = .returned t (result t))
    ∧ (s.status = .ready → ∀ t, run n { s with status := .running } = .outOfFuel t → s.execute n = .outOfFuel t)
    ∧ (s.status = .suspended ∨ s.status = .terminated ∨ s.status = .faulted → s.execute n = .returned s (result s))
    ∧ (s.status = .running → (s.execute n).stateAfter s = some s)

/-- R231: `resume` continues a run from Suspended, its first step fetching again at `ip`, and in any other status changes
nothing; between runs it returns the result. -/
def Obligations.ResumeContinuesASuspendedRun : Prop :=
  ∀ (n : Nat) (s : State),
    (s.status = .suspended → ∀ t, run n { s with status := .running } = .ended t → s.resume n = .returned t (result t))
    ∧ (s.status = .suspended → ∀ t, run n { s with status := .running } = .outOfFuel t → s.resume n = .outOfFuel t)
    ∧ (s.status = .ready ∨ s.status = .terminated ∨ s.status = .faulted → s.resume n = .returned s (result s))
    ∧ (s.status = .running → (s.resume n).stateAfter s = some s)

/-- R232 (the `Fault` result is the spec's own decision D17): the fault record of a faulted core, else the status and the
word at address 0. -/
def Obligations.ResultIsStatusAndWordZeroOrFault : Prop :=
  ∀ s : State,
    (s.status = .faulted → result s = .fault s.fault)
    ∧ (s.status ≠ .faulted → result s = .ok s.status (s.mem.read 0))

/-- R255: the wait state and the stop state. Suspended is entered only by IN on an empty queue, with everything else as it
was; only `resume` leaves it, supplying input does not; a resume with the queue still empty comes back to the identical
state; Terminated is permanent. -/
def Obligations.SuspendedWaitsForResume : Prop :=
  (∀ s t : State, step s = .next t → t.status = .suspended →
    s.inq = [] ∧ t = { s with status := .suspended } ∧ ∃ a, fetchInstr s = .ok (.inp a))
  ∧ (∀ (n : Nat) (k : HostCall) (s t : State), s.status = .suspended → k ≠ .resume → k.stateAfter n s = some t →
      t.status = .suspended ∧ t.ip = s.ip ∧ t.rb = s.rb ∧ t.fault = s.fault)
  ∧ (∀ (n : Nat) (s : State) (a : Param) (d : Nat), s.status = .suspended → s.inq = [] →
      fetchInstr s = .ok (.inp a) → addressOf s 1 a = .ok d → s.resume (n + 1) = .returned s (result s))
  ∧ (∀ (n : Nat) (s t : State), step s = .next t → t.status = .suspended → t.resume (n + 1) = .returned t (result t))
  ∧ (∀ (n : Nat) (k : HostCall) (s t : State), s.status = .terminated → k.stateAfter n s = some t →
      t.status = .terminated)

/-- 60_exceptions.md R223 (the Faulted status is the spec's own decision D11): no host call, whatever it is, changes the
status or the fault record of a faulted core, and no step runs on it. -/
def Obligations.FaultedIsPermanent : Prop :=
  ∀ (n : Nat) (k : HostCall) (s t : State), s.status = .faulted → k.stateAfter n s = some t →
    t.status = .faulted ∧ t.fault = s.fault ∧ step t = .fault (.notRunning .faulted)

/-- The status table of 60_exceptions.md R234 (D11) for the host's calls: only `execute` from Ready and `resume` from
Suspended change it, and then to Suspended, Terminated or Faulted; no call ever leads back to Ready. -/
def Obligations.HostCallsMoveStatusAsTabled : Prop :=
  ∀ (n : Nat) (k : HostCall) (s t : State), k.stateAfter n s = some t →
    t.status = s.status
    ∨ ((k = .execute ∧ s.status = .ready ∨ k = .resume ∧ s.status = .suspended)
      ∧ (t.status = .suspended ∨ t.status = .terminated ∨ t.status = .faulted))

/-- `read_mem` and `write_mem`, 60_exceptions.md R243 (D15): between runs they read and write one word; outside memory they
are a host error, and the core is not faulted. -/
def Obligations.HostReadsAndWritesMemory : Prop :=
  ∀ (s : State) (a v : Int), s.status ≠ .running →
    (inRange s.cfg a → s.readMem a = .ok (s.mem.read a.toNat))
    ∧ (inRange s.cfg a → inWord s.cfg.wordBits v → s.writeMem a v = .ok { s with mem := s.mem.write a.toNat v })
    ∧ (¬ inRange s.cfg a → s.readMem a = .error .badAddress ∧ s.writeMem a v = .error .badAddress)

/-- `write_input` and `read_output`, 60_exceptions.md R241, R242 (D14, D18), in every status but Running. -/
def Obligations.HostReadsAndWritesQueues : Prop :=
  ∀ (s : State) (v : Int), s.status ≠ .running →
    (inWord s.cfg.wordBits v → s.writeInput v = .ok { s with inq := s.inq ++ [v] })
    ∧ (s.outq = [] → s.readOutput = .ok (none, s))
    ∧ (∀ x rest, s.outq = x :: rest → s.readOutput = .ok (some x, { s with outq := rest }))

/-- clone, 60_exceptions.md R244 with 10_state.md R33 (that the fault record is copied is the spec's own decision D11): between
runs it leaves the first core as it is and gives a second one with the whole of its state. -/
def Obligations.CloneCopiesTheWholeState : Prop :=
  ∀ s : State, s.status ≠ .running → s.clone = .ok (s, s)

/-- 60_exceptions.md R233 (D16): while a run is in progress no host operation is accepted, so none changes the state. -/
def Obligations.HostIsNotAcceptedWhileRunning : Prop :=
  ∀ (n : Nat) (s : State), s.status = .running →
    (∀ (k : HostCall) (t : State), k.stateAfter n s = some t → t = s)
    ∧ (∀ v, s.writeInput v = .error .running) ∧ s.readOutput = .error .running
    ∧ (∀ a, s.readMem a = .error .running) ∧ (∀ a v, s.writeMem a v = .error .running)
    ∧ s.clone = .error .running ∧ s.execute n = .rejected .running ∧ s.resume n = .rejected .running
end

