-- ==== Sys2Proof/Laws/Decode.lean ====
section
/-! SUPPORT. What the decoder and the encoder do, said once: mode digits, and one inversion lemma for `decode`. -/

namespace Sys2Proof

theorem except_bind_ok {ε α β : Type} {x : Except ε α} {f : α → Except ε β} {b : β} :
    (x >>= f) = .ok b ↔ ∃ a, x = .ok a ∧ f a = .ok b := by
  cases x <;> simp [bind, Except.bind]

theorem except_bind_error {ε α β : Type} {x : Except ε α} {f : α → Except ε β} {e : ε} :
    (x >>= f) = .error e ↔ x = .error e ∨ ∃ a, x = .ok a ∧ f a = .error e := by
  cases x <;> simp [bind, Except.bind]

/-! ### Modes -/

@[simp] theorem modeOfDigit_digit (m : Mode) : modeOfDigit m.digit = some m := by cases m <;> rfl

theorem Mode.digit_le (m : Mode) : m.digit ≤ 2 := by cases m <;> decide

theorem modeOfDigit_eq_some {d : Nat} {m : Mode} : modeOfDigit d = some m ↔ d = m.digit := by
  constructor
  · intro h
    match d, h with
    | 0, h => cases m <;> simp_all [modeOfDigit, Mode.digit]
    | 1, h => cases m <;> simp_all [modeOfDigit, Mode.digit]
    | 2, h => cases m <;> simp_all [modeOfDigit, Mode.digit]
    | n + 3, h => simp [modeOfDigit] at h
  · rintro rfl; simp

theorem modeOfDigit_eq_none {d : Nat} : modeOfDigit d = none ↔ 2 < d := by
  match d with
  | 0 => simp [modeOfDigit]
  | 1 => simp [modeOfDigit]
  | 2 => simp [modeOfDigit]
  | n + 3 => simp [modeOfDigit]

theorem modeAt_ok {w i : Nat} {m : Mode} : modeAt w i = .ok m ↔ digit w (i + 1) = m.digit := by
  unfold modeAt
  rw [← modeOfDigit_eq_some]
  cases modeOfDigit (digit w (i + 1)) <;> simp

theorem modeAt_legal {w i : Nat} (h : digit w (i + 1) ≤ 2) : ∃ m : Mode, modeAt w i = .ok m ∧ digit w (i + 1) = m.digit := by
  cases hm : modeOfDigit (digit w (i + 1)) with
  | some m => exact ⟨m, by simp [modeAt, hm], modeOfDigit_eq_some.1 hm⟩
  | none => have := modeOfDigit_eq_none.1 hm; omega

theorem modeAt_illegal {w i : Nat} (h : 2 < digit w (i + 1)) : modeAt w i = .error (.illegalMode i) := by
  simp [modeAt, modeOfDigit_eq_none.2 h]

theorem checkExtra_ok {x : ExtraModeDigits} {w n : Nat} :
    checkExtra x w n = .ok () ↔ (x = .fault → w / 10 ^ (n + 2) = 0) := by
  cases x
  · simp [checkExtra]
  · by_cases h : w / 10 ^ (n + 2) = 0
    · simp only [checkExtra, h, if_true]; simp
    · simp only [checkExtra, h, if_false]; simp

theorem checkExtra_error {x : ExtraModeDigits} {w n : Nat} (h : ¬ (x = .fault → w / 10 ^ (n + 2) = 0)) :
    checkExtra x w n = .error (.illegalMode (n + 1)) := by
  cases x
  · simp at h
  · have h0 : ¬ w / 10 ^ (n + 2) = 0 := by simpa using h
    simp only [checkExtra, h0, if_false]

theorem takeParam_ok {i : Nat} {m : Mode} {ws rest : List Int} {p : Param} :
    takeParam i m ws = .ok (p, rest) ↔ ws = p.raw :: rest ∧ p.mode = m := by
  cases ws with
  | nil => simp [takeParam]
  | cons v ws =>
    obtain ⟨pm, pr⟩ := p
    simp only [takeParam, Except.ok.injEq, Prod.mk.injEq, Param.mk.injEq, List.cons.injEq]
    constructor
    · rintro ⟨⟨rfl, rfl⟩, rfl⟩; simp
    · rintro ⟨⟨rfl, rfl⟩, rfl⟩; simp

/-! ### What each format decodes -/

/-- The mode digits of an instruction word are those of a list of parameters, the first of them parameter `i`. -/
def modesMatch (w : Nat) : Nat → List Param → Prop
  | _, [] => True
  | i, p :: ps => digit w (i + 1) = p.mode.digit ∧ modesMatch w (i + 1) ps

theorem decode0_ok {mk i : Instr} {x : ExtraModeDigits} {w : Nat} {ws rest : List Int} :
    decode0 mk x w ws = .ok (i, rest) ↔ i = mk ∧ ws = rest ∧ (x = .fault → w / 10 ^ 2 = 0) := by
  unfold decode0
  simp only [except_bind_ok, pure, Except.pure, Except.ok.injEq, Prod.mk.injEq]
  constructor
  · rintro ⟨u, hu, rfl, rfl⟩; exact ⟨rfl, rfl, checkExtra_ok.1 hu⟩
  · rintro ⟨rfl, rfl, h⟩; exact ⟨(), checkExtra_ok.2 h, rfl, rfl⟩

theorem decode1_ok {mk : Param → Instr} {i : Instr} {x : ExtraModeDigits} {w : Nat} {ws rest : List Int} :
    decode1 mk x w ws = .ok (i, rest) ↔
      ∃ a, i = mk a ∧ ws = a.raw :: rest ∧ modesMatch w 1 [a] ∧ (x = .fault → w / 10 ^ 3 = 0) := by
  unfold decode1
  simp only [except_bind_ok, pure, Except.pure, Except.ok.injEq, Prod.mk.injEq, modesMatch, and_true]
  constructor
  · rintro ⟨m, hm, u, hu, ⟨a, r⟩, ha, rfl, rfl⟩
    rw [takeParam_ok] at ha
    obtain ⟨rfl, rfl⟩ := ha
    exact ⟨a, rfl, rfl, modeAt_ok.1 hm, checkExtra_ok.1 hu⟩
  · rintro ⟨a, rfl, rfl, h1, hx⟩
    exact ⟨a.mode, modeAt_ok.2 h1, (), checkExtra_ok.2 hx, (a, rest), takeParam_ok.2 ⟨rfl, rfl⟩, rfl, rfl⟩

theorem decode2_ok {mk : Param → Param → Instr} {i : Instr} {x : ExtraModeDigits} {w : Nat} {ws rest : List Int} :
    decode2 mk x w ws = .ok (i, rest) ↔
      ∃ a b, i = mk a b ∧ ws = a.raw :: b.raw :: rest ∧ modesMatch w 1 [a, b] ∧ (x = .fault → w / 10 ^ 4 = 0) := by
  unfold decode2
  simp only [except_bind_ok, pure, Except.pure, Except.ok.injEq, Prod.mk.injEq, modesMatch, and_true]
  constructor
  · rintro ⟨m, hm, m2, hm2, u, hu, ⟨a, r⟩, ha, ⟨b, r2⟩, hb, rfl, rfl⟩
    rw [takeParam_ok] at ha hb
    obtain ⟨rfl, rfl⟩ := ha
    obtain ⟨h, rfl⟩ := hb
    exact ⟨a, b, rfl, by simp_all, ⟨modeAt_ok.1 hm, modeAt_ok.1 hm2⟩, checkExtra_ok.1 hu⟩
  · rintro ⟨a, b, rfl, rfl, ⟨h1, h2⟩, hx⟩
    exact ⟨a.mode, modeAt_ok.2 h1, b.mode, modeAt_ok.2 h2, (), checkExtra_ok.2 hx, (a, b.raw :: rest),
      takeParam_ok.2 ⟨rfl, rfl⟩, (b, rest), takeParam_ok.2 ⟨rfl, rfl⟩, rfl, rfl⟩

theorem decode3_ok {mk : Param → Param → Param → Instr} {i : Instr} {x : ExtraModeDigits} {w : Nat} {ws rest : List Int} :
    decode3 mk x w ws = .ok (i, rest) ↔
      ∃ a b c, i = mk a b c ∧ ws = a.raw :: b.raw :: c.raw :: rest ∧ modesMatch w 1 [a, b, c]
        ∧ (x = .fault → w / 10 ^ 5 = 0) := by
  unfold decode3
  simp only [except_bind_ok, pure, Except.pure, Except.ok.injEq, Prod.mk.injEq, modesMatch, and_true]
  constructor
  · rintro ⟨m, hm, m2, hm2, m3, hm3, u, hu, ⟨a, r⟩, ha, ⟨b, r2⟩, hb, ⟨c, r3⟩, hc, rfl, rfl⟩
    rw [takeParam_ok] at ha hb hc
    obtain ⟨rfl, rfl⟩ := ha
    obtain ⟨h, rfl⟩ := hb
    obtain ⟨h', rfl⟩ := hc
    exact ⟨a, b, c, rfl, by simp_all, ⟨modeAt_ok.1 hm, modeAt_ok.1 hm2, modeAt_ok.1 hm3⟩, checkExtra_ok.1 hu⟩
  · rintro ⟨a, b, c, rfl, rfl, ⟨h1, h2, h3⟩, hx⟩
    exact ⟨a.mode, modeAt_ok.2 h1, b.mode, modeAt_ok.2 h2, c.mode, modeAt_ok.2 h3, (), checkExtra_ok.2 hx,
      (a, b.raw :: c.raw :: rest), takeParam_ok.2 ⟨rfl, rfl⟩, (b, c.raw :: rest), takeParam_ok.2 ⟨rfl, rfl⟩,
      (c, rest), takeParam_ok.2 ⟨rfl, rfl⟩, rfl, rfl⟩

/-! ### What each format answers, as one equation -/

/-- The mode of a legal digit. -/
def modeOr (d : Nat) : Mode := (modeOfDigit d).getD .position

theorem digit_modeOr {d : Nat} (h : d ≤ 2) : (modeOr d).digit = d := by
  match d, h with
  | 0, _ => rfl
  | 1, _ => rfl
  | 2, _ => rfl

theorem modeAt_eq (w i : Nat) :
    modeAt w i = if 2 < digit w (i + 1) then .error (.illegalMode i) else .ok (modeOr (digit w (i + 1))) := by
  split
  · next h => exact modeAt_illegal h
  · next h =>
    obtain ⟨m, hm, hd⟩ := modeAt_legal (w := w) (i := i) (by omega)
    rw [hm, hd, modeOr, modeOfDigit_digit]; rfl

theorem checkExtra_eq (x : ExtraModeDigits) (w n : Nat) :
    checkExtra x w n = if x = .fault ∧ w / 10 ^ (n + 2) ≠ 0 then .error (.illegalMode (n + 1)) else .ok () := by
  by_cases h : x = .fault → w / 10 ^ (n + 2) = 0
  · rw [checkExtra_ok.2 h, if_neg (fun h' => h'.2 (h h'.1))]
  · rw [checkExtra_error h, if_pos (by simpa [-Nat.div_eq_zero_iff] using h)]

theorem decode0_eq (mk : Instr) (x : ExtraModeDigits) (w : Nat) (ws : List Int) :
    decode0 mk x w ws = if x = .fault ∧ w / 10 ^ 2 ≠ 0 then .error (.illegalMode 1) else .ok (mk, ws) := by
  unfold decode0
  rw [checkExtra_eq]
  split <;> rfl

theorem decode1_eq (mk : Param → Instr) (x : ExtraModeDigits) (w : Nat) (ws : List Int) :
    decode1 mk x w ws =
      if 2 < digit w 2 then .error (.illegalMode 1)
      else if x = .fault ∧ w / 10 ^ 3 ≠ 0 then .error (.illegalMode 2)
      else match ws with
        | [] => .error (.missing 1)
        | a :: r => .ok (mk ⟨modeOr (digit w 2), a⟩, r) := by
  unfold decode1
  rw [modeAt_eq, checkExtra_eq]
  split
  · rfl
  · split
    · rfl
    · cases ws <;> rfl

theorem decode2_eq (mk : Param → Param → Instr) (x : ExtraModeDigits) (w : Nat) (ws : List Int) :
    decode2 mk x w ws =
      if 2 < digit w 2 then .error (.illegalMode 1)
      else if 2 < digit w 3 then .error (.illegalMode 2)
      else if x = .fault ∧ w / 10 ^ 4 ≠ 0 then .error (.illegalMode 3)
      else match ws with
        | [] => .error (.missing 1)
        | [_] => .error (.missing 2)
        | a :: b :: r => .ok (mk ⟨modeOr (digit w 2), a⟩ ⟨modeOr (digit w 3), b⟩, r) := by
  unfold decode2
  rw [modeAt_eq, modeAt_eq, checkExtra_eq]
  split
  · rfl
  · split
    · rfl
    · split
      · rfl
      · match ws with
        | [] => rfl
        | [_] => rfl
        | _ :: _ :: _ => rfl

theorem decode3_eq (mk : Param → Param → Param → Instr) (x : ExtraModeDigits) (w : Nat) (ws : List Int) :
    decode3 mk x w ws =
      if 2 < digit w 2 then .error (.illegalMode 1)
      else if 2 < digit w 3 then .error (.illegalMode 2)
      else if 2 < digit w 4 then .error (.illegalMode 3)
      else if x = .fault ∧ w / 10 ^ 5 ≠ 0 then .error (.illegalMode 4)
      else match ws with
        | [] => .error (.missing 1)
        | [_] => .error (.missing 2)
        | [_, _] => .error (.missing 3)
        | a :: b :: c :: r =>
          .ok (mk ⟨modeOr (digit w 2), a⟩ ⟨modeOr (digit w 3), b⟩ ⟨modeOr (digit w 4), c⟩, r) := by
  unfold decode3
  rw [modeAt_eq, modeAt_eq, modeAt_eq, checkExtra_eq]
  split
  · rfl
  · split
    · rfl
    · split
      · rfl
      · split
        · rfl
        · match ws with
          | [] => rfl
          | [_] => rfl
          | [_, _] => rfl
          | _ :: _ :: _ :: _ => rfl

theorem decode_nil (x : ExtraModeDigits) : decode x [] = .error (.missing 0) := rfl

theorem decode_cons (x : ExtraModeDigits) (w : Int) (ws : List Int) :
    decode x (w :: ws) = if w < 0 then .error .illegalOpcode else decodeOpcode x w.toNat ws := rfl

/-- The dispatch, as an equation per row: what `decodeOpcode` is for each residue of the instruction word. -/
theorem decodeOpcode_cases (x : ExtraModeDigits) (w : Nat) (ws : List Int) :
    (w % 100 = 1 ∧ decodeOpcode x w ws = decode3 .add x w ws)
    ∨ (w % 100 = 2 ∧ decodeOpcode x w ws = decode3 .mul x w ws)
    ∨ (w % 100 = 3 ∧ decodeOpcode x w ws = decode1 .inp x w ws)
    ∨ (w % 100 = 4 ∧ decodeOpcode x w ws = decode1 .out x w ws)
    ∨ (w % 100 = 5 ∧ decodeOpcode x w ws = decode2 .jt x w ws)
    ∨ (w % 100 = 6 ∧ decodeOpcode x w ws = decode2 .jf x w ws)
    ∨ (w % 100 = 7 ∧ decodeOpcode x w ws = decode3 .lt x w ws)
    ∨ (w % 100 = 8 ∧ decodeOpcode x w ws = decode3 .eq x w ws)
    ∨ (w % 100 = 9 ∧ decodeOpcode x w ws = decode1 .arb x w ws)
    ∨ (w % 100 = 99 ∧ decodeOpcode x w ws = decode0 .hlt x w ws)
    ∨ ((w % 100 = 0 ∨ (10 ≤ w % 100 ∧ w % 100 ≤ 98)) ∧ decodeOpcode x w ws = .error .illegalOpcode) := by
  unfold decodeOpcode
  split <;> simp_all
  omega

/-- Everything `decodeOpcode` answers when it answers an instruction. -/
theorem decodeOpcode_ok {x : ExtraModeDigits} {w : Nat} {ws rest : List Int} {i : Instr} :
    decodeOpcode x w ws = .ok (i, rest) ↔
      w % 100 = i.opcode ∧ ws = i.params.map Param.raw ++ rest ∧ modesMatch w 1 i.params
        ∧ (x = .fault → w / 10 ^ (i.arity + 2) = 0) := by
  rcases decodeOpcode_cases x w ws with h | h | h | h | h | h | h | h | h | h | h <;> obtain ⟨hw, he⟩ := h <;> rw [he]
  case inr.inr.inr.inr.inr.inr.inr.inr.inr.inr =>
    constructor
    · intro h; simp at h
    · rintro ⟨h, -⟩; cases i <;> simp [Instr.opcode] at h <;> omega
  all_goals
    simp only [decode3_ok, decode2_ok, decode1_ok, decode0_ok, hw]
    constructor
    · intro h
      first
        | (obtain ⟨a, b, c, rfl, rfl, hm, hx⟩ := h; exact ⟨rfl, rfl, hm, hx⟩)
        | (obtain ⟨a, b, rfl, rfl, hm, hx⟩ := h; exact ⟨rfl, rfl, hm, hx⟩)
        | (obtain ⟨a, rfl, rfl, hm, hx⟩ := h; exact ⟨rfl, rfl, hm, hx⟩)
        | (obtain ⟨rfl, rfl, hx⟩ := h; exact ⟨rfl, rfl, trivial, hx⟩)
    · rintro ⟨ho, rfl, hm, hx⟩
      cases i <;> simp [Instr.opcode] at ho
      first
        | exact ⟨_, _, _, rfl, rfl, hm, hx⟩
        | exact ⟨_, _, rfl, rfl, hm, hx⟩
        | exact ⟨_, rfl, rfl, hm, hx⟩
        | exact ⟨rfl, rfl, hx⟩

end Sys2Proof
end

