-- ==== Sys2Proof/Laws/Encode.lean ====
section
/-! SUPPORT. The shape of an encoded instruction, and words as strings of bits. -/

namespace Sys2Proof

/-- The instruction word carries the opcode, the mode digits of the parameters and nothing above them. -/
theorem encode_word (i : Instr) :
    i.word % 100 = i.opcode ∧ modesMatch i.word 1 i.params ∧ i.word / 10 ^ (i.arity + 2) = 0 := by
  have hm := Mode.digit_le
  cases i with
  | hlt => simp [Instr.word, Instr.params, modeDigits, Instr.opcode, modesMatch, Instr.arity]
  | add a b c | mul a b c | lt a b c | eq a b c =>
    have := hm a.mode; have := hm b.mode; have := hm c.mode
    simp only [Instr.word, Instr.params, modeDigits, Instr.opcode, modesMatch, digit, Instr.arity, List.length_cons,
      List.length_nil, Nat.reduceAdd, Nat.reducePow, Nat.reduceMul, and_true]
    refine ⟨?_, ⟨?_, ?_, ?_⟩, ?_⟩ <;> omega
  | jt a b | jf a b =>
    have := hm a.mode; have := hm b.mode
    simp only [Instr.word, Instr.params, modeDigits, Instr.opcode, modesMatch, digit, Instr.arity, List.length_cons,
      List.length_nil, Nat.reduceAdd, Nat.reducePow, Nat.reduceMul, and_true]
    refine ⟨?_, ⟨?_, ?_⟩, ?_⟩ <;> omega
  | inp a | out a | arb a =>
    have := hm a.mode
    simp only [Instr.word, Instr.params, modeDigits, Instr.opcode, modesMatch, digit, Instr.arity, List.length_cons,
      List.length_nil, Nat.reduceAdd, Nat.reducePow, and_true]
    refine ⟨?_, ?_, ?_⟩ <;> omega

/-- A word with these digits and nothing above them is the instruction's own. -/
theorem word_of_digits {w : Nat} {i : Instr} (h1 : w % 100 = i.opcode) (h2 : modesMatch w 1 i.params) (h3 : w / 10 ^ (i.arity + 2) = 0) :
    w = i.word := by
  cases i <;> simp only [Instr.word, Instr.params, modeDigits, Instr.opcode, modesMatch, digit, Instr.arity, List.length] at h1 h2 h3 ⊢ <;> omega

theorem encode_length (i : Instr) : (encode i).length = i.length := by simp [encode, Instr.length, Instr.arity]; omega

/-- A decoded list starts with a word that is not negative. -/
theorem decode_cons_ok {x : ExtraModeDigits} {ws rest : List Int} {i : Instr} {w : Int}
    (h : decode x (w :: ws) = .ok (i, rest)) :
   0 ≤ w ∧ decodeOpcode x w.toNat ws = .ok (i, rest) := by
  rw [decode_cons] at h
  split at h
  · simp at h
  · exact ⟨by omega, h⟩

/-- A decoded instruction takes as many words as it is long. -/
theorem decode_length {x : ExtraModeDigits} {ws rest : List Int} {i : Instr} (h : decode x ws = .ok (i, rest)) :
    ws.length = i.length + rest.length := by
  cases ws with
  | nil => cases h
  | cons w ws =>
    rw [(decodeOpcode_ok.1 (decode_cons_ok h).2).2.1]
    simp [Instr.length, Instr.arity]
    omega

/-- A digit below the cut survives it. -/
theorem digit_mod {w n k : Nat} (h : k < n) : digit (w % 10 ^ n) k = digit w k := by
  unfold digit
  have : (10:Nat) ^ n = 10 ^ k * (10 * 10 ^ (n - k - 1)) := by
    rw [← Nat.pow_succ', ← Nat.pow_add]; congr; omega
  rw [this, Nat.mod_mul_right_div_self, Nat.mod_mul_right_mod]

theorem bitsOfWord_lt (bits v) : bitsOfWord bits v < 2 ^ bits := by
  unfold bitsOfWord
  have : (0:Int) < ((2 ^ bits : Nat) : Int) := by positivity
  have h1 := Int.emod_nonneg v (ne_of_gt this)
  have h2 := Int.emod_lt_of_pos v this
  omega

/-- A word survives its bits, whatever stands above them. -/
theorem wordOfBits_bitsOfWord {bits v} (hb : 1 ≤ bits) (n : Nat) (h : inWord bits v) :
    wordOfBits bits (bitsOfWord bits v + 2 ^ bits * n) = v := by
  unfold wordOfBits
  rw [Nat.add_mul_mod_self_left, Nat.mod_eq_of_lt (bitsOfWord_lt _ _)]
  have h2 : 2 ^ bits = 2 * wordHalf bits := by
    unfold wordHalf; rw [← Nat.pow_succ']; congr; omega
  unfold bitsOfWord
  rw [h2]
  obtain ⟨hl, hu⟩ := h
  simp only
  generalize wordHalf bits = H at *
  have hH : 0 < H := by omega
  by_cases hv : 0 ≤ v
  · rw [Int.emod_eq_of_lt hv (by push_cast; omega)]
    rw [if_pos (by omega)]; omega
  · have : v % ((2 * H : Nat) : Int) = v + (2 * H : Nat) := by
      rw [← Int.add_emod_right, Int.emod_eq_of_lt (by push_cast; omega) (by push_cast; omega)]
    rw [this, if_neg (by omega)]; omega

/-- A list of words survives its bits; zeros follow. -/
theorem wordsOfBits_bitsOfWords {bits} (hb : 1 ≤ bits) (ws : List Int) (h : ∀ v ∈ ws, inWord bits v) (k : Nat) :
   wordsOfBits bits (ws.length + k) (bitsOfWords bits ws) = ws ++ wordsOfBits bits k 0 := by
  induction ws with
  | nil => simp [bitsOfWords]
  | cons v ws ih =>
    simp only [List.length_cons, Nat.add_right_comm _ 1 k, wordsOfBits, bitsOfWords]
    rw [wordOfBits_bitsOfWord hb _ (h v (by simp))]
    have : (bitsOfWord bits v + 2 ^ bits * bitsOfWords bits ws) / 2 ^ bits = bitsOfWords bits ws := by
      rw [Nat.add_mul_div_left _ _ (by positivity), Nat.div_eq_of_lt (bitsOfWord_lt _ _), Nat.zero_add]
    rw [this, ih (fun x hx => h x (by simp [hx]))]
    rfl

theorem bitsOfWords_lt (bits ws) : bitsOfWords bits ws < 2 ^ (bits * ws.length) := by
  induction ws with
  | nil => simp [bitsOfWords]
  | cons v ws ih =>
    simp only [bitsOfWords, List.length_cons, Nat.mul_add, Nat.mul_one, Nat.pow_add]
    have := bitsOfWord_lt bits v
    calc bitsOfWord bits v + 2 ^ bits * bitsOfWords bits ws < 2 ^ bits + 2 ^ bits * bitsOfWords bits ws := by omega
      _ = 2 ^ bits * (bitsOfWords bits ws + 1) := by ring
      _ ≤ 2 ^ bits * 2 ^ (bits * ws.length) := Nat.mul_le_mul_left _ ih
      _ = _ := by ring

end Sys2Proof
end

