-- ==== Sys2Proof/Laws/State.lean ====
section
/-! SUPPORT. One lemma per field per update of State, so that no later proof unfolds an update. -/

namespace Sys2Proof.Machine

section
variable (s : State) (d : Nat) (v t : Int) (n : Nat) (f : FaultInfo)

@[simp] theorem State.store_cfg : (s.store d v).cfg = s.cfg := rfl
@[simp] theorem State.store_mem : (s.store d v).mem = s.mem.write d v := rfl
@[simp] theorem State.store_ip : (s.store d v).ip = s.ip := rfl
@[simp] theorem State.store_rb : (s.store d v).rb = s.rb := rfl
@[simp] theorem State.store_status : (s.store d v).status = s.status := rfl
@[simp] theorem State.store_inq : (s.store d v).inq = s.inq := rfl
@[simp] theorem State.store_outq : (s.store d v).outq = s.outq := rfl
@[simp] theorem State.store_fault : (s.store d v).fault = s.fault := rfl

@[simp] theorem State.advance_cfg : (s.advance n).cfg = s.cfg := rfl
@[simp] theorem State.advance_mem : (s.advance n).mem = s.mem := rfl
@[simp] theorem State.advance_ip : (s.advance n).ip = s.ip + n := rfl
@[simp] theorem State.advance_rb : (s.advance n).rb = s.rb := rfl
@[simp] theorem State.advance_status : (s.advance n).status = s.status := rfl
@[simp] theorem State.advance_inq : (s.advance n).inq = s.inq := rfl
@[simp] theorem State.advance_outq : (s.advance n).outq = s.outq := rfl
@[simp] theorem State.advance_fault : (s.advance n).fault = s.fault := rfl

@[simp] theorem State.jump_cfg : (s.jump t).cfg = s.cfg := rfl
@[simp] theorem State.jump_mem : (s.jump t).mem = s.mem := rfl
@[simp] theorem State.jump_ip : (s.jump t).ip = t := rfl
@[simp] theorem State.jump_rb : (s.jump t).rb = s.rb := rfl
@[simp] theorem State.jump_status : (s.jump t).status = s.status := rfl
@[simp] theorem State.jump_inq : (s.jump t).inq = s.inq := rfl
@[simp] theorem State.jump_outq : (s.jump t).outq = s.outq := rfl
@[simp] theorem State.jump_fault : (s.jump t).fault = s.fault := rfl

@[simp] theorem State.raise_cfg : (s.raise f).cfg = s.cfg := rfl
@[simp] theorem State.raise_mem : (s.raise f).mem = s.mem := rfl
@[simp] theorem State.raise_ip : (s.raise f).ip = s.ip := rfl
@[simp] theorem State.raise_rb : (s.raise f).rb = s.rb := rfl
@[simp] theorem State.raise_status : (s.raise f).status = .faulted := rfl
@[simp] theorem State.raise_inq : (s.raise f).inq = s.inq := rfl
@[simp] theorem State.raise_outq : (s.raise f).outq = s.outq := rfl
@[simp] theorem State.raise_fault :
    (s.raise f).fault = some ⟨f.cause, s.ip, s.faultWord, f.param, f.addr⟩ := rfl

end

/-- Two states are equal when all their fields are. -/
@[ext] theorem State.ext_fields {s t : State} (h1 : s.cfg = t.cfg) (h2 : s.mem = t.mem) (h3 : s.ip = t.ip)
    (h4 : s.rb = t.rb) (h5 : s.status = t.status) (h6 : s.inq = t.inq) (h7 : s.outq = t.outq)
    (h8 : s.fault = t.fault) : s = t := by
  cases s; cases t; simp_all

end Sys2Proof.Machine
end

