-- ==== Sys2Proof/Laws/Operands.lean ====
section
/-! SUPPORT. What the operand resolver and the range check can answer, said once. -/

namespace Sys2Proof.Machine

/-- `checkAddress` answers a legal address and nothing else. -/
theorem checkAddress_ok {s : State} {i : Nat} {a : Int} {d : Nat} :
    checkAddress s i a = .ok d ↔ inRange s.cfg a ∧ d = a.toNat := by
  unfold checkAddress
  by_cases h : inRange s.cfg a
  · rw [if_pos h]; exact ⟨fun e => ⟨h, by injection e with e; exact e.symm⟩, fun e => by rw [e.2]⟩
  · rw [if_neg h]; exact ⟨fun e => by simp at e, fun e => absurd e.1 h⟩

/-- The one fault of `checkAddress`. -/
theorem checkAddress_error {s : State} {i : Nat} {a : Int} {f : FaultInfo} :
    checkAddress s i a = .error f ↔ ¬ inRange s.cfg a ∧ f = ⟨.outOfBounds, i, some a⟩ := by
  unfold checkAddress
  by_cases h : inRange s.cfg a
  · rw [if_pos h]; exact ⟨fun e => by simp at e, fun e => absurd h e.1⟩
  · rw [if_neg h]; exact ⟨fun e => ⟨h, by injection e with e; exact e.symm⟩, fun e => by rw [e.2]⟩

theorem except_map_ok {ε α β : Type} {x : Except ε α} {f : α → β} {b : β} :
    x.map f = .ok b ↔ ∃ a, x = .ok a ∧ f a = b := by
  cases x <;> simp [Except.map]

theorem except_map_error {ε α β : Type} {x : Except ε α} {f : α → β} {e : ε} : x.map f = .error e ↔ x = .error e := by
  cases x <;> simp [Except.map]

/-- Everything `valueOf` can answer as a value. -/
theorem valueOf_ok {s : State} {i : Nat} {p : Param} {x : Int} :
    valueOf s i p = .ok x ↔
      (paramAddress s p = none ∧ x = p.raw)
      ∨ ∃ a, paramAddress s p = some a ∧ inRange s.cfg a ∧ x = s.mem.read a.toNat := by
  unfold valueOf
  cases paramAddress s p with
  | none => simp [eq_comm]
  | some a =>
    simp only [except_map_ok, checkAddress_ok, reduceCtorEq, false_and, false_or, Option.some.injEq]
    constructor
    · rintro ⟨d, ⟨h, rfl⟩, rfl⟩; exact ⟨a, rfl, h, rfl⟩
    · rintro ⟨_, rfl, h, rfl⟩; exact ⟨_, ⟨h, rfl⟩, rfl⟩

/-- The one fault of `valueOf`. -/
theorem valueOf_error {s : State} {i : Nat} {p : Param} {f : FaultInfo} :
    valueOf s i p = .error f ↔ ∃ a, paramAddress s p = some a ∧ ¬ inRange s.cfg a ∧ f = ⟨.outOfBounds, i, some a⟩ := by
  unfold valueOf
  cases paramAddress s p with
  | none => simp
  | some a =>
    simp only [except_map_error, checkAddress_error, Option.some.injEq]
    constructor
    · rintro ⟨h, rfl⟩; exact ⟨a, rfl, h, rfl⟩
    · rintro ⟨_, rfl, h, rfl⟩; exact ⟨h, rfl⟩

/-- `addressOf` answers a legal address and nothing else. -/
theorem addressOf_ok {s : State} {i : Nat} {p : Param} {d : Nat} :
    addressOf s i p = .ok d ↔ ∃ a, paramAddress s p = some a ∧ inRange s.cfg a ∧ d = a.toNat := by
  unfold addressOf
  cases paramAddress s p with
  | none => simp
  | some a => simp [checkAddress_ok]

/-- The two faults of `addressOf`. -/
theorem addressOf_error {s : State} {i : Nat} {p : Param} {f : FaultInfo} :
    addressOf s i p = .error f ↔
      (paramAddress s p = none ∧ f = ⟨.immediateWrite, i, none⟩)
      ∨ ∃ a, paramAddress s p = some a ∧ ¬ inRange s.cfg a ∧ f = ⟨.outOfBounds, i, some a⟩ := by
  unfold addressOf
  cases paramAddress s p with
  | none => simp [eq_comm]
  | some a => simp [checkAddress_error]

/-- An address the resolver answers lies in memory. -/
theorem addressOf_lt {s : State} {i : Nat} {p : Param} {d : Nat} (h : addressOf s i p = .ok d) : d < s.cfg.memSize := by
  obtain ⟨a, -, ⟨h0, h1⟩, rfl⟩ := addressOf_ok.1 h
  omega

theorem checkWord_ok {c : Config} {r x : Int} : checkWord c r = .ok x ↔ inWord c.wordBits r ∧ x = r := by
  unfold checkWord
  by_cases h : inWord c.wordBits r
  · rw [if_pos h]; exact ⟨fun e => ⟨h, by injection e with e; exact e.symm⟩, fun e => by rw [e.2]⟩
  · rw [if_neg h]; exact ⟨fun e => by simp at e, fun e => absurd e.1 h⟩

theorem checkWord_error {c : Config} {r : Int} {f : FaultInfo} :
    checkWord c r = .error f ↔ ¬ inWord c.wordBits r ∧ f = ⟨.arithOverflow, 0, none⟩ := by
  unfold checkWord
  by_cases h : inWord c.wordBits r
  · rw [if_pos h]; exact ⟨fun e => by simp at e, fun e => absurd h e.1⟩
  · rw [if_neg h]; exact ⟨fun e => ⟨h, by injection e with e; exact e.symm⟩, fun e => by rw [e.2]⟩

end Sys2Proof.Machine
end

