-- ==== Sys2Proof/Laws/Exec.lean ====
section
/-! SUPPORT. What an instruction can do, said once: every meaning is a commit of one effect, and each shared effect has one
inversion lemma. -/

namespace Sys2Proof.Machine

/-- The S6 effect of every instruction, before the commit. -/
def effectOf : Instr → State → Except FaultInfo State
  | .add a b c, s => alu3 aluAdd a b c s
  | .mul a b c, s => alu3 aluMul a b c s
  | .inp a, s => inputEffect a s
  | .out a, s => outputEffect a s
  | .jt a b, s => jump2 (fun x => decide (x ≠ 0)) a b s
  | .jf a b, s => jump2 (fun x => decide (x = 0)) a b s
  | .lt a b c, s => alu3 aluLt a b c s
  | .eq a b c, s => alu3 aluEq a b c s
  | .arb a, s => adjustBase a s
  | .hlt, s => .ok { s with status := .terminated }

/-- Every meaning commits its effect. -/
theorem exec_eq_commit (i : Instr) (s : State) : exec i s = commit s (effectOf i s) := by cases i <;> rfl

@[simp] theorem commit_ok (s t : State) : commit s (.ok t) = .next t := rfl
@[simp] theorem commit_error (s : State) (f : FaultInfo) : commit s (.error f) = .next (s.raise f) := rfl

/-- A commit is a next state: the effect's, or the entry into the fault. -/
theorem commit_next {s t : State} {r : Except FaultInfo State} :
    commit s r = .next t ↔ r = .ok t ∨ ∃ f, r = .error f ∧ t = s.raise f := by
  cases r <;> simp [eq_comm]

/-- Everything an instruction can answer. -/
theorem exec_next {i : Instr} {s t : State} :
    exec i s = .next t ↔ effectOf i s = .ok t ∨ ∃ f, effectOf i s = .error f ∧ t = s.raise f := by
  rw [exec_eq_commit]; exact commit_next

/-- No instruction stops the model. -/
theorem exec_is_next (i : Instr) (s : State) : ∃ t, exec i s = .next t := by
  rw [exec_eq_commit]
  cases effectOf i s with
  | ok t => exact ⟨t, rfl⟩
  | error f => exact ⟨_, rfl⟩

theorem alu3_ok {f : Config → Int → Int → Except FaultInfo Int} {a b c : Param} {s t : State} :
    alu3 f a b c s = .ok t ↔
      ∃ x y d r, valueOf s 1 a = .ok x ∧ valueOf s 2 b = .ok y ∧ addressOf s 3 c = .ok d ∧ f s.cfg x y = .ok r
        ∧ t = (s.store d r).advance 4 := by
  unfold alu3
  simp only [except_bind_ok, pure, Except.pure, Except.ok.injEq]
  constructor
  · rintro ⟨x, hx, y, hy, d, hd, r, hr, rfl⟩; exact ⟨x, y, d, r, hx, hy, hd, hr, rfl⟩
  · rintro ⟨x, y, d, r, hx, hy, hd, hr, rfl⟩; exact ⟨x, hx, y, hy, d, hd, r, hr, rfl⟩

/-- The faults of a format F3 instruction, in the order of R110. -/
theorem alu3_error {f : Config → Int → Int → Except FaultInfo Int} {a b c : Param} {s : State} {e : FaultInfo} :
    alu3 f a b c s = .error e ↔
      valueOf s 1 a = .error e
      ∨ ∃ x, valueOf s 1 a = .ok x ∧ (valueOf s 2 b = .error e
        ∨ ∃ y, valueOf s 2 b = .ok y ∧ (addressOf s 3 c = .error e
          ∨ ∃ d, addressOf s 3 c = .ok d ∧ f s.cfg x y = .error e)) := by
  unfold alu3
  simp [except_bind_error, pure, Except.pure]

theorem jump2_ok {p : Int → Bool} {a b : Param} {s t : State} :
    jump2 p a b s = .ok t ↔
      ∃ x y, valueOf s 1 a = .ok x ∧ valueOf s 2 b = .ok y ∧ t = if p x then s.jump y else s.advance 3 := by
  unfold jump2
  simp only [except_bind_ok, pure, Except.pure, Except.ok.injEq]
  constructor
  · rintro ⟨x, hx, y, hy, rfl⟩; exact ⟨x, y, hx, hy, rfl⟩
  · rintro ⟨x, y, hx, hy, rfl⟩; exact ⟨x, hx, y, hy, rfl⟩

theorem jump2_error {p : Int → Bool} {a b : Param} {s : State} {e : FaultInfo} :
    jump2 p a b s = .error e ↔
      valueOf s 1 a = .error e ∨ ∃ x, valueOf s 1 a = .ok x ∧ valueOf s 2 b = .error e := by
  unfold jump2
  simp [except_bind_error, pure, Except.pure]

theorem inputEffect_ok {a : Param} {s t : State} :
    inputEffect a s = .ok t ↔
      ∃ d, addressOf s 1 a = .ok d ∧
        ((s.inq = [] ∧ t = { s with status := .suspended })
        ∨ ∃ v rest, s.inq = v :: rest ∧ t = ({ s with inq := rest }.store d v).advance 2) := by
  unfold inputEffect
  rw [except_bind_ok]
  cases s.inq with
  | nil =>
    simp only [pure, Except.pure, Except.ok.injEq, reduceCtorEq, false_and, exists_false, or_false, true_and]
    exact ⟨fun ⟨d, h, e⟩ => ⟨d, h, e.symm⟩, fun ⟨d, h, e⟩ => ⟨d, h, e.symm⟩⟩
  | cons v rest =>
    simp only [pure, Except.pure, Except.ok.injEq, reduceCtorEq, false_and, false_or]
    constructor
    · rintro ⟨d, h, rfl⟩; exact ⟨d, h, v, rest, rfl, rfl⟩
    · rintro ⟨d, h, v', rest', e, rfl⟩; cases e; exact ⟨d, h, rfl⟩

theorem inputEffect_error {a : Param} {s : State} {e : FaultInfo} :
    inputEffect a s = .error e ↔ addressOf s 1 a = .error e := by
  unfold inputEffect
  cases h : s.inq <;> simp [except_bind_error, pure, Except.pure]

theorem outputEffect_ok {a : Param} {s t : State} :
    outputEffect a s = .ok t ↔ ∃ x, valueOf s 1 a = .ok x ∧ t = { s with outq := s.outq ++ [x] }.advance 2 := by
  unfold outputEffect
  simp only [except_bind_ok, pure, Except.pure, Except.ok.injEq]
  exact ⟨fun ⟨x, h, e⟩ => ⟨x, h, e.symm⟩, fun ⟨x, h, e⟩ => ⟨x, h, e.symm⟩⟩

theorem outputEffect_error {a : Param} {s : State} {e : FaultInfo} :
    outputEffect a s = .error e ↔ valueOf s 1 a = .error e := by
  unfold outputEffect
  simp [except_bind_error, pure, Except.pure]

theorem adjustBase_ok {a : Param} {s t : State} :
    adjustBase a s = .ok t ↔
      ∃ y, valueOf s 1 a = .ok y ∧ inWord s.cfg.wordBits (s.rb + y) ∧ t = { s with rb := s.rb + y }.advance 2 := by
  unfold adjustBase baseAdd
  simp only [except_bind_ok, pure, Except.pure, Except.ok.injEq, checkWord_ok]
  constructor
  · rintro ⟨y, hy, r, ⟨hr, rfl⟩, rfl⟩; exact ⟨y, hy, hr, rfl⟩
  · rintro ⟨y, hy, hr, rfl⟩; exact ⟨y, hy, _, ⟨hr, rfl⟩, rfl⟩

theorem adjustBase_error {a : Param} {s : State} {e : FaultInfo} :
    adjustBase a s = .error e ↔
      valueOf s 1 a = .error e
      ∨ ∃ y, valueOf s 1 a = .ok y ∧ ¬ inWord s.cfg.wordBits (s.rb + y) ∧ e = ⟨.arithOverflow, 0, none⟩ := by
  unfold adjustBase baseAdd
  simp [except_bind_error, pure, Except.pure, checkWord_error]

/-! ### The step -/

theorem step_of_running {s : State} (h : s.status = .running) :
    step s = match fetchInstr s with
      | .ok i => exec i s
      | .error f => commit s (.error f) := by
  unfold step
  split
  · rfl
  all_goals next h' => rw [h] at h'; cases h'

/-- Everything a step can answer as a next state: the core is Running, and the step is that of the instruction fetched, or
the entry into the fault of the fetch. -/
theorem step_next {s t : State} :
    step s = .next t ↔
      s.status = .running ∧
        ((∃ i, fetchInstr s = .ok i ∧ exec i s = .next t) ∨ ∃ f, fetchInstr s = .error f ∧ t = s.raise f) := by
  cases h : s.status with
  | running =>
    rw [step_of_running h]
    cases fetchInstr s <;> simp [eq_comm]
  | ready => simp [step, h]
  | suspended => simp [step, h]
  | terminated => simp [step, h]
  | faulted => simp [step, h]

end Sys2Proof.Machine
end

