-- ==== Sys2Proof/Laws/Memory.lean ====
section
/-! SUPPORT. The laws of Program Memory: a write changes the one word it names, every operation keeps the canonical form,
and memories that read alike are equal. -/

namespace Sys2Proof.Machine

@[simp] theorem Memory.read_nil (a : Nat) : Memory.read [] a = 0 := rfl

theorem Memory.wfFrom_cons {lo a : Nat} {v : Int} {m : Memory} :
    Memory.wfFrom lo ((a, v) :: m) = true ↔ lo ≤ a ∧ v ≠ 0 ∧ Memory.wfFrom (a + 1) m = true := by
  simp [Memory.wfFrom, and_assoc]

theorem Memory.wfFrom_mono {m : Memory} {lo lo' : Nat} (h : Memory.wfFrom lo m = true) (hle : lo' ≤ lo) :
    Memory.wfFrom lo' m = true := by
  cases m with
  | nil => rfl
  | cons p m =>
    obtain ⟨a, v⟩ := p
    rw [Memory.wfFrom_cons] at h ⊢
    exact ⟨by omega, h.2⟩

/-- Below the first listed address every word is 0. -/
theorem Memory.read_below {m : Memory} {lo a : Nat} (h : Memory.wfFrom lo m = true) (ha : a < lo) : m.read a = 0 := by
  induction m generalizing lo with
  | nil => rfl
  | cons p m ih =>
    obtain ⟨b, x⟩ := p
    rw [Memory.wfFrom_cons] at h
    have hab : a ≠ b := by omega
    simpa [Memory.read, hab] using ih h.2.2 (by omega)

theorem Memory.read_put_other {m : Memory} {a b : Nat} (v : Int) (h : b ≠ a) : (Memory.put a v m).read b = m.read b := by
  unfold Memory.put
  split <;> simp [Memory.read, h]

theorem Memory.read_put_same {m : Memory} {a : Nat} (v : Int) (h : m.read a = 0) : (Memory.put a v m).read a = v := by
  unfold Memory.put
  split <;> simp_all [Memory.read]

/-- A write leaves every other word alone, whatever the list. -/
theorem Memory.read_write_other (m : Memory) {a b : Nat} (v : Int) (h : b ≠ a) : (m.write a v).read b = m.read b := by
  induction m with
  | nil => exact Memory.read_put_other v h
  | cons p m ih =>
    obtain ⟨c, x⟩ := p
    unfold Memory.write
    split
    · exact Memory.read_put_other v h
    · split
      · next hac => subst hac; simp [Memory.read_put_other v h, Memory.read, h]
      · simp [Memory.read, ih]

/-- A read after a write to the same address gives the word written. -/
theorem Memory.read_write_same {m : Memory} {lo : Nat} (h : Memory.wfFrom lo m = true) (a : Nat) (v : Int) :
    (m.write a v).read a = v := by
  induction m generalizing lo with
  | nil => exact Memory.read_put_same v rfl
  | cons p m ih =>
    obtain ⟨c, x⟩ := p
    have h' := h
    rw [Memory.wfFrom_cons] at h
    unfold Memory.write
    split
    · next hac =>
      exact Memory.read_put_same v (Memory.read_below (lo := c) (Memory.wfFrom_cons.2 ⟨le_rfl, h.2⟩) hac)
    · split
      · next hac => subst hac; exact Memory.read_put_same v (Memory.read_below h.2.2 (by omega))
      · next hac => simpa [Memory.read, hac] using ih h.2.2

theorem Memory.wfFrom_put {m : Memory} {lo a : Nat} (v : Int) (h : Memory.wfFrom (a + 1) m = true) (ha : lo ≤ a) :
    Memory.wfFrom lo (Memory.put a v m) = true := by
  unfold Memory.put
  split
  · exact Memory.wfFrom_mono h (by omega)
  · next hv => exact Memory.wfFrom_cons.2 ⟨ha, hv, h⟩

theorem Memory.wfFrom_write {m : Memory} {lo a : Nat} (v : Int) (h : Memory.wfFrom lo m = true) (ha : lo ≤ a) :
    Memory.wfFrom lo (m.write a v) = true := by
  induction m generalizing lo with
  | nil => exact Memory.wfFrom_put v rfl ha
  | cons p m ih =>
    obtain ⟨c, x⟩ := p
    have h' := Memory.wfFrom_cons.1 h
    unfold Memory.write
    split
    · next hac => exact Memory.wfFrom_put v (Memory.wfFrom_cons.2 ⟨by omega, h'.2⟩) ha
    · split
      · next hac => subst hac; exact Memory.wfFrom_put v h'.2.2 ha
      · next h1 h2 => exact Memory.wfFrom_cons.2 ⟨h'.1, h'.2.1, ih h'.2.2 (by omega)⟩

/-- A write keeps the canonical form. -/
theorem Memory.wf_write {m : Memory} (a : Nat) (v : Int) (h : m.wf = true) : (m.write a v).wf = true :=
  Memory.wfFrom_write v h (Nat.zero_le a)

/-- Reset memory has the canonical form. -/
theorem Memory.wf_reset : State.reset.mem.wf = true := rfl

theorem Memory.wfFrom_load (ws : List Int) (a : Nat) : Memory.wfFrom a (Memory.load a ws) = true := by
  induction ws generalizing a with
  | nil => rfl
  | cons v ws ih => exact Memory.wfFrom_put v (ih (a + 1)) le_rfl

/-- Loading a program gives the canonical form. -/
theorem Memory.wf_load (ws : List Int) : (Memory.load 0 ws).wf = true := Memory.wfFrom_load ws 0

/-- The words of a loaded program stand where they were put, and every other word is 0. -/
theorem Memory.read_load (ws : List Int) (a k : Nat) : (Memory.load a ws).read (a + k) = ws.getD k 0 := by
  induction ws generalizing a k with
  | nil => simp [Memory.load]
  | cons v ws ih =>
    cases k with
    | zero => exact Memory.read_put_same v (Memory.read_below (Memory.wfFrom_load ws (a + 1)) (by omega))
    | succ k =>
      have := ih (a + 1) k
      rw [Nat.add_right_comm] at this
      rw [Memory.load, Memory.read_put_other v (by omega), List.getD_cons_succ]
      simpa [Nat.add_assoc] using this

/-- Memories in canonical form that read alike are the same data. -/
theorem Memory.eq_of_read_eq {m m' : Memory} {lo : Nat} (h : Memory.wfFrom lo m = true) (h' : Memory.wfFrom lo m' = true)
    (he : ∀ a, m.read a = m'.read a) : m = m' := by
  induction m generalizing m' lo with
  | nil =>
    cases m' with
    | nil => rfl
    | cons p m' =>
      obtain ⟨b, y⟩ := p
      have := he b
      simp [Memory.read] at this
      exact absurd this.symm (Memory.wfFrom_cons.1 h').2.1
  | cons p m ih =>
    obtain ⟨a, x⟩ := p
    have ha := Memory.wfFrom_cons.1 h
    cases m' with
    | nil => exact absurd (by simpa [Memory.read] using he a) ha.2.1
    | cons q m' =>
      obtain ⟨b, y⟩ := q
      have hb := Memory.wfFrom_cons.1 h'
      have hab : a = b := by
        rcases Nat.lt_trichotomy a b with hlt | heq | hgt
        · have h1 := he a
          rw [Memory.read_below (lo := b) (m := (b, y) :: m') (Memory.wfFrom_cons.2 ⟨le_rfl, hb.2⟩) hlt] at h1
          exact absurd (by simpa [Memory.read] using h1) ha.2.1
        · exact heq
        · have h1 := he b
          rw [Memory.read_below (lo := a) (m := (a, x) :: m) (Memory.wfFrom_cons.2 ⟨le_rfl, ha.2⟩) hgt] at h1
          exact absurd (by simpa [Memory.read] using h1.symm) hb.2.1
      subst hab
      have hxy : x = y := by simpa [Memory.read] using he a
      subst hxy
      have : m = m' := ih ha.2.2 hb.2.2 (fun c => by
        rcases Nat.lt_or_ge c (a + 1) with hc | hc
        · rw [Memory.read_below ha.2.2 hc, Memory.read_below hb.2.2 hc]
        · have h1 := he c
          have hca : c ≠ a := by omega
          simpa [Memory.read, hca] using h1)
      rw [this]

/-! ### Words at legal addresses -/

theorem Memory.holdsWords_put {c : Config} {m : Memory} {a : Nat} {v : Int} (h : m.holdsWords c) (ha : a < c.memSize)
    (hv : inWord c.wordBits v) : (Memory.put a v m).holdsWords c := by
  unfold Memory.put
  split
  · exact h
  · intro p hp
    rcases List.mem_cons.1 hp with rfl | hp
    · exact ⟨ha, hv⟩
    · exact h p hp

theorem Memory.holdsWords_write {c : Config} {m : Memory} {a : Nat} {v : Int} (h : m.holdsWords c) (ha : a < c.memSize)
    (hv : inWord c.wordBits v) : (m.write a v).holdsWords c := by
  induction m with
  | nil => exact Memory.holdsWords_put h ha hv
  | cons p m ih =>
    obtain ⟨b, x⟩ := p
    have hm : Memory.holdsWords c m := fun q hq => h q (List.mem_cons_of_mem _ hq)
    unfold Memory.write
    split
    · exact Memory.holdsWords_put h ha hv
    · split
      · exact Memory.holdsWords_put hm ha hv
      · intro q hq
        rcases List.mem_cons.1 hq with rfl | hq
        · exact h _ (List.mem_cons_self ..)
        · exact ih hm q hq

theorem Memory.holdsWords_load {c : Config} {ws : List Int} {a : Nat} (hlen : a + ws.length ≤ c.memSize)
    (hw : ∀ v ∈ ws, inWord c.wordBits v) : (Memory.load a ws).holdsWords c := by
  induction ws generalizing a with
  | nil => intro p hp; simp [Memory.load] at hp
  | cons v ws ih =>
    simp only [List.length_cons] at hlen
    exact Memory.holdsWords_put (ih (by omega) (fun x hx => hw x (List.mem_cons_of_mem _ hx))) (by omega)
      (hw v (List.mem_cons_self ..))

/-- The half range of words is positive. -/
theorem wordHalf_pos (bits : Nat) : 0 < wordHalf bits := Nat.pow_pos (by decide)

theorem inWord_zero (bits : Nat) : inWord bits 0 := by
  have := wordHalf_pos bits
  constructor <;> omega

theorem inWord_one {bits : Nat} (h : 1 < wordHalf bits) : inWord bits 1 := by constructor <;> omega

/-- Every word read from a memory of words is a word. -/
theorem Memory.inWord_read {c : Config} {m : Memory} (h : m.holdsWords c) (a : Nat) : inWord c.wordBits (m.read a) := by
  induction m with
  | nil => exact inWord_zero _
  | cons p m ih =>
    obtain ⟨b, x⟩ := p
    unfold Memory.read
    split
    · exact (h _ (List.mem_cons_self ..)).2
    · exact ih (fun q hq => h q (List.mem_cons_of_mem _ hq))

end Sys2Proof.Machine
end

