-- ==== Sys2Proof/Laws/Step.lean ====
section
/-! SUPPORT. What fetching and one step can do, said once. -/

namespace Sys2Proof.Machine

/-- Every word that is fetched stands in memory. -/
theorem mem_wordsFrom {s : State} {a : Int} {k : Nat} {v : Int} (h : v ∈ wordsFrom s a k) : ∃ b, v = s.mem.read b := by
  induction k generalizing a with
  | zero => simp [wordsFrom] at h
  | succ k ih =>
    unfold wordsFrom at h
    split at h
    · rcases List.mem_cons.1 h with rfl | h
      · exact ⟨_, rfl⟩
      · exact ih h
    · simp at h

/-- Everything a successful fetch says. -/
theorem fetch_ok {s : State} {i} (h : fetchInstr s = .ok i) :
   inRange s.cfg s.ip ∧ (∃ rest, decode s.cfg.extraModeDigits (wordsFrom s s.ip maxLength) = .ok (i, rest)) ∧
   (s.mem.read s.ip.toNat).toNat % 100 = i.opcode ∧ 0 ≤ s.mem.read s.ip.toNat ∧ s.ip + i.arity < s.cfg.memSize ∧
   ∀ p ∈ i.params, ∃ b, p.raw = s.mem.read b := by
  unfold fetchInstr at h
  split at h
  · next j rest hd =>
    cases h
    have hr : inRange s.cfg s.ip := by
      by_contra hr
      rw [maxLength, wordsFrom, if_neg hr] at hd
      simp [decode] at hd
    have hd' := hd
    rw [maxLength, wordsFrom, if_pos hr] at hd
    obtain ⟨h0, hd⟩ := decode_cons_ok hd
    have ho := decodeOpcode_ok.1 hd
    refine ⟨hr, ⟨_, hd'⟩, ho.1, h0, ?_, ?_⟩
    · have hl := congrArg List.length ho.2.1
      simp only [List.length_append, List.length_map] at hl
      have key : ∀ k (a : Int), 0 ≤ a → (wordsFrom s a k).length = 0 ∨ a + (wordsFrom s a k).length ≤ s.cfg.memSize := by
        intro k
        induction k with
        | zero => intro a _; simp [wordsFrom]
        | succ k ih =>
          intro a ha
          unfold wordsFrom
          split
          · next hr' => rcases ih (a+1) (by omega) with h | h <;> (right; simp only [List.length_cons]; have := hr'.2; push_cast; omega)
          · simp
      unfold Instr.arity
      have := hr.1; have := hr.2
      rcases key 3 (s.ip + 1) (by omega) with h | h
      · omega
      · omega
    · intro p hp
      have : p.raw ∈ wordsFrom s (s.ip + 1) 3 := by rw [ho.2.1]; exact List.mem_append_left _ (List.mem_map_of_mem hp)
      exact mem_wordsFrom this
  · simp at h

/-- The errors the decoder can give. -/
def DecodeError.possible : DecodeError → Prop
  | .missing i => i ≤ 3
  | .illegalOpcode => True
  | .illegalMode i => 1 ≤ i ∧ i ≤ 4

theorem decodeOpcode_err {x w ws e} (h : decodeOpcode x w ws = .error e) : DecodeError.possible e ∧ e ≠ .missing 0 := by
  rcases decodeOpcode_cases x w ws with h' | h' | h' | h' | h' | h' | h' | h' | h' | h' | h' <;> obtain ⟨hw, he⟩ := h' <;> rw [he] at h
  case inr.inr.inr.inr.inr.inr.inr.inr.inr.inr => cases h; simp [DecodeError.possible]
  all_goals
    first | rw [decode3_eq] at h | rw [decode2_eq] at h | rw [decode1_eq] at h | rw [decode0_eq] at h
    repeat' split at h
    all_goals first | (cases h; simp [DecodeError.possible]) | cases h

/-- Every fault of stages S1 to S4. -/
theorem fetch_error {s : State} {f} (h : fetchInstr s = .error f) :
   (¬ inRange s.cfg s.ip ∧ f = ⟨.outOfBounds, 0, some s.ip⟩) ∨
   (inRange s.cfg s.ip ∧ ((∃ i : Nat, 1 ≤ i ∧ i ≤ 3 ∧ ¬ inRange s.cfg (s.ip + i) ∧ f = ⟨.outOfBounds, i, some (s.ip + i)⟩)
     ∨ f = ⟨.illegalOpcode, 0, none⟩ ∨ ∃ i, 1 ≤ i ∧ i ≤ 4 ∧ f = ⟨.illegalMode, i, none⟩)) := by
  unfold fetchInstr at h
  split at h
  · cases h
  next e hd =>
  injection h with h
  subst h
  by_cases hr : inRange s.cfg s.ip
  · right
    refine ⟨hr, ?_⟩
    have hd0 := hd
    rw [maxLength, wordsFrom, if_pos hr, decode_cons] at hd
    split at hd
    · cases hd; right; left; rfl
    · have he := decodeOpcode_err hd
      cases e with
      | illegalOpcode => right; left; rfl
      | illegalMode i => right; right; exact ⟨i, he.1.1, he.1.2, rfl⟩
      | missing i =>
        left
        have hi : i ≤ 3 := he.1
        have hi0 : i ≠ 0 := fun h => he.2 (by rw [h])
        refine ⟨i, by omega, hi, ?_, rfl⟩
        intro hr'
        -- length of list
        have hlen : ∀ k (a : Int), 0 ≤ a → ∀ j : Nat, j < k → a + j < s.cfg.memSize → j < (wordsFrom s a k).length := by
          intro k
          induction k with
          | zero => intro a _ j hj; omega
          | succ k ih =>
            intro a ha j hj hb
            have : inRange s.cfg a := ⟨ha, by omega⟩
            rw [wordsFrom, if_pos this, List.length_cons]
            cases j with
            | zero => omega
            | succ j => have := ih (a+1) (by omega) j (by omega) (by push_cast at hb; omega); omega
        have hl := hlen 3 (s.ip + 1) (by have := hr.1; omega) (i - 1) (by omega) (by have := hr'.2; omega)
        have hmiss : ∀ x w ws i, decodeOpcode x w ws = .error (.missing i) → ws.length < i := by
          intro x w ws i h
          rcases decodeOpcode_cases x w ws with h' | h' | h' | h' | h' | h' | h' | h' | h' | h' | h' <;> obtain ⟨hw, he⟩ := h' <;> rw [he] at h
          case inr.inr.inr.inr.inr.inr.inr.inr.inr.inr => cases h
          all_goals
            first | rw [decode3_eq] at h | rw [decode2_eq] at h | rw [decode1_eq] at h | rw [decode0_eq] at h
            repeat' split at h
            all_goals first | (cases h; simp) | cases h
        have := hmiss _ _ _ _ hd
        omega
  · left
    rw [maxLength, wordsFrom, if_neg hr, decode_nil] at hd
    cases hd
    refine ⟨hr, ?_⟩
    simp [decodeFault]

/-- A read or written address outside memory. -/
abbrev OperandOutside (s : State) (f : FaultInfo) : Prop :=
  ∃ k a, 1 ≤ k ∧ k ≤ 3 ∧ ¬ inRange s.cfg a ∧ f = ⟨.outOfBounds, k, some a⟩

/-- An Immediate write parameter. -/
abbrev ImmediateDestination (f : FaultInfo) : Prop := ∃ k, (k = 1 ∨ k = 3) ∧ f = ⟨.immediateWrite, k, none⟩

/-- Every fault of stages S5 and S6. -/
theorem effect_error {i : Instr} {s f} (h : effectOf i s = .error f) :
    OperandOutside s f ∨ ImmediateDestination f ∨ f = ⟨.arithOverflow, 0, none⟩ := by
  have hv : ∀ {k p}, 1 ≤ k → k ≤ 3 → valueOf s k p = .error f → OperandOutside s f := by
    intro k p h1 h3 h
    obtain ⟨a, -, ha, rfl⟩ := valueOf_error.1 h
    exact ⟨k, a, h1, h3, ha, rfl⟩
  have ha : ∀ {k p}, (k = 1 ∨ k = 3) → addressOf s k p = .error f →
      OperandOutside s f ∨ ImmediateDestination f := by
    intro k p h1 h
    rcases addressOf_error.1 h with ⟨-, rfl⟩ | ⟨a, -, ha, rfl⟩
    · exact Or.inr ⟨k, h1, rfl⟩
    · exact Or.inl ⟨k, a, by omega, by omega, ha, rfl⟩
  have h3 : ∀ {g a b c}, (∀ x y f, g s.cfg x y = .error f → f = ⟨.arithOverflow, 0, none⟩) → alu3 g a b c s = .error f →
      OperandOutside s f ∨ ImmediateDestination f ∨ f = ⟨.arithOverflow, 0, none⟩ := by
    intro g a b c hg h
    rcases alu3_error.1 h with h | ⟨x, -, h | ⟨y, -, h | ⟨d, -, h⟩⟩⟩
    · exact Or.inl (hv (by omega) (by omega) h)
    · exact Or.inl (hv (by omega) (by omega) h)
    · rcases ha (by omega) h with h | h
      · exact Or.inl h
      · exact Or.inr (Or.inl h)
    · exact Or.inr (Or.inr (hg _ _ _ h))
  have h2 : ∀ {g a b}, jump2 g a b s = .error f → OperandOutside s f := by
    intro g a b h
    rcases jump2_error.1 h with h | ⟨x, -, h⟩
    · exact hv (by omega) (by omega) h
    · exact hv (by omega) (by omega) h
  cases i with
  | add a b c => exact h3 (fun x y f h => (checkWord_error.1 h).2) h
  | mul a b c => exact h3 (fun x y f h => (checkWord_error.1 h).2) h
  | lt a b c => exact h3 (fun x y f h => by simp [aluLt] at h) h
  | eq a b c => exact h3 (fun x y f h => by simp [aluEq] at h) h
  | inp a =>
    rcases ha (Or.inl rfl) (inputEffect_error.1 h) with h | h
    · exact Or.inl h
    · exact Or.inr (Or.inl h)
  | out a => exact Or.inl (hv (by omega) (by omega) (outputEffect_error.1 h))
  | jt a b => exact Or.inl (h2 h)
  | jf a b => exact Or.inl (h2 h)
  | arb a =>
    rcases adjustBase_error.1 h with h | ⟨y, -, -, h⟩
    · exact Or.inl (hv (by omega) (by omega) h)
    · exact Or.inr (Or.inr h)
  | hlt => simp [effectOf] at h

/-- The status an effect leaves. -/
theorem effect_status {i : Instr} {s t : State} (h : effectOf i s = .ok t) :
    t.status = s.status
    ∨ (t = { s with status := .suspended } ∧ s.inq = [] ∧ ∃ a d, i = .inp a ∧ addressOf s 1 a = .ok d)
    ∨ (t = { s with status := .terminated } ∧ i = .hlt) := by
  cases i with
  | add a b c | mul a b c | lt a b c | eq a b c => obtain ⟨x, y, d, r, -, -, hd, -, rfl⟩ := alu3_ok.1 h; exact Or.inl rfl
  | jt a b | jf a b => obtain ⟨x, y, -, -, rfl⟩ := jump2_ok.1 h; left; split <;> rfl
  | out a => obtain ⟨x, -, rfl⟩ := outputEffect_ok.1 h; exact Or.inl rfl
  | inp a =>
    obtain ⟨d, hd, ⟨hq, rfl⟩ | ⟨v, rest, hq, rfl⟩⟩ := inputEffect_ok.1 h
    · exact Or.inr (Or.inl ⟨rfl, hq, a, d, rfl, hd⟩)
    · exact Or.inl rfl
  | arb a => obtain ⟨x, -, -, rfl⟩ := adjustBase_ok.1 h; exact Or.inl rfl
  | hlt => simp [effectOf] at h; subst h; exact Or.inr (Or.inr ⟨rfl, rfl⟩)

/-- The status a step leaves, and what the step was. -/
theorem step_status {s t : State} (h : step s = .next t) :
    t.status = .running
    ∨ (t = { s with status := .suspended } ∧ s.inq = [] ∧ ∃ a d, fetchInstr s = .ok (.inp a) ∧ addressOf s 1 a = .ok d)
    ∨ (t = { s with status := .terminated } ∧ fetchInstr s = .ok .hlt)
    ∨ ∃ f, t = s.raise f ∧ (fetchInstr s = .error f ∨ ∃ i, fetchInstr s = .ok i ∧ effectOf i s = .error f) := by
  obtain ⟨hr, ⟨i, hf, he⟩ | ⟨f, hf, rfl⟩⟩ := step_next.1 h
  · rcases exec_next.1 he with he' | ⟨e, he', rfl⟩
    · rcases effect_status he' with h | ⟨h, hq, a, d, rfl, hd⟩ | ⟨h, rfl⟩
      · exact Or.inl (h.trans hr)
      · exact Or.inr (Or.inl ⟨h, hq, a, d, hf, hd⟩)
      · exact Or.inr (Or.inr (Or.inl ⟨h, hf⟩))
    · exact Or.inr (Or.inr (Or.inr ⟨e, rfl, Or.inr ⟨i, hf, he'⟩⟩))
  · exact Or.inr (Or.inr (Or.inr ⟨f, rfl, Or.inl hf⟩))

/-- A format F3 instruction as one expression. -/
theorem alu3_commit (s : State) (f : Config → Int → Int → Except FaultInfo Int) (a b c : Param) :
    commit s (alu3 f a b c s) = .next (match valueOf s 1 a with
      | .error e => s.raise e
      | .ok x => match valueOf s 2 b with
        | .error e => s.raise e
        | .ok y => match addressOf s 3 c with
          | .error e => s.raise e
          | .ok d => match f s.cfg x y with
            | .error e => s.raise e
            | .ok r => (s.store d r).advance 4) := by
  unfold alu3
  cases valueOf s 1 a with
  | error e => rfl
  | ok x => cases valueOf s 2 b with
    | error e => rfl
    | ok y => cases addressOf s 3 c with
      | error e => rfl
      | ok d =>
        show commit s (f s.cfg x y >>= fun r => pure ((s.store d r).advance 4)) = .next (match f s.cfg x y with
          | .error e => s.raise e
          | .ok r => (s.store d r).advance 4)
        cases f s.cfg x y <;> rfl

/-- A format F2 instruction as one expression. -/
theorem jump2_commit (s : State) (p : Int → Bool) (a b : Param) :
    commit s (jump2 p a b s) = .next (match valueOf s 1 a with
      | .error e => s.raise e
      | .ok x => match valueOf s 2 b with
        | .error e => s.raise e
        | .ok y => if p x then s.jump y else s.advance 3) := by
  unfold jump2
  cases valueOf s 1 a with
  | error e => rfl
  | ok x => cases valueOf s 2 b with
    | error e => rfl
    | ok y => rfl

/-- Fetching reads memory, `ip` and the parameters alone. -/
theorem wordsFrom_congr {s t : State} (hm : t.mem = s.mem) (hc : t.cfg = s.cfg) (k : Nat) (a : Int) :
    wordsFrom t a k = wordsFrom s a k := by
  induction k generalizing a with
  | zero => rfl
  | succ k ih => simp only [wordsFrom, ih, hm, hc]

theorem fetchInstr_congr {s t : State} (hm : t.mem = s.mem) (hc : t.cfg = s.cfg) (hi : t.ip = s.ip) :
    fetchInstr t = fetchInstr s := by
  have hd : decodeFault t = decodeFault s := by funext e; cases e <;> simp [decodeFault, hi]
  unfold fetchInstr
  rw [wordsFrom_congr hm hc, hc, hi, hd]

/-- A step of a Running core is a next state. -/
theorem step_is_next {s : State} (h : s.status = .running) : ∃ t, step s = .next t := by
  rw [step_of_running h]
  cases fetchInstr s with
  | ok i => exact exec_is_next i s
  | error f => exact ⟨_, rfl⟩

end Sys2Proof.Machine
end

