-- ==== Sys2Proof/Laws/Host.lean ====
section
/-! SUPPORT. What the host's operations and runs can do, said once. -/

namespace Sys2Proof.Machine

/-- Everything `new` answers. -/
theorem new_ok {c p s} : State.new c p = .ok s ↔ p.length ≤ c.memSize ∧ (∀ v ∈ p, inWord c.wordBits v) ∧
   s = { cfg := c, mem := Memory.load 0 p, ip := 0, rb := 0, status := .ready, inq := [], outq := [], fault := none } := by
  unfold State.new
  by_cases h : c.memSize < p.length
  · rw [if_pos h]; simp; intro h'; omega
  · rw [if_neg h]
    have hl : p.length ≤ c.memSize := by omega
    by_cases hw : ∀ v ∈ p, inWord c.wordBits v
    · rw [if_pos (by simpa using hw)]
      simp only [hl, true_and, Except.ok.injEq]
      exact ⟨fun e => ⟨hw, e.symm⟩, fun e => e.2.symm⟩
    · rw [if_neg (by simpa using hw)]
      simp only [reduceCtorEq, false_iff]
      exact fun h => hw h.2.1

theorem writeInput_ok {s t : State} {v : Int} :
    s.writeInput v = .ok t ↔ s.status ≠ .running ∧ inWord s.cfg.wordBits v ∧ t = { s with inq := s.inq ++ [v] } := by
  unfold State.writeInput
  by_cases h : s.status = .running
  · rw [if_pos h]; simp [h]
  · rw [if_neg h]
    by_cases hv : inWord s.cfg.wordBits v
    · rw [if_pos hv]; simp only [Except.ok.injEq]; exact ⟨fun e => ⟨h, hv, e.symm⟩, fun e => e.2.2.symm⟩
    · rw [if_neg hv]; exact ⟨fun e => by simp at e, fun e => absurd e.2.1 hv⟩

theorem writeMem_ok {s t : State} {a v : Int} :
    s.writeMem a v = .ok t ↔
      s.status ≠ .running ∧ inRange s.cfg a ∧ inWord s.cfg.wordBits v ∧ t = s.store a.toNat v := by
  unfold State.writeMem
  by_cases h : s.status = .running
  · rw [if_pos h]; simp [h]
  · rw [if_neg h]
    by_cases ha : inRange s.cfg a
    · rw [if_neg (not_not.2 ha)]
      by_cases hv : inWord s.cfg.wordBits v
      · rw [if_pos hv]; simp only [Except.ok.injEq]; exact ⟨fun e => ⟨h, ha, hv, e.symm⟩, fun e => e.2.2.2.symm⟩
      · rw [if_neg hv]; exact ⟨fun e => by simp at e, fun e => absurd e.2.2.1 hv⟩
    · rw [if_pos ha]; exact ⟨fun e => by simp at e, fun e => absurd e.2.1 ha⟩

theorem readOutput_ok {s t : State} {o : Option Int} :
    s.readOutput = .ok (o, t) ↔ s.status ≠ .running ∧ o = s.outq.head? ∧ t = { s with outq := s.outq.tail } := by
  unfold State.readOutput
  by_cases h : s.status = .running
  · rw [if_pos h]; simp [h]
  · rw [if_neg h]
    cases hq : s.outq with
    | nil =>
      simp only [Except.ok.injEq, Prod.mk.injEq, List.head?_nil, List.tail_nil]
      have : s = { s with outq := [] } := by cases s; simp_all
      exact ⟨fun e => ⟨h, e.1.symm, e.2 ▸ this⟩, fun e => ⟨e.2.1.symm, by rw [e.2.2]; exact this⟩⟩
    | cons x xs =>
      simp only [Except.ok.injEq, Prod.mk.injEq, List.head?_cons, List.tail_cons]
      exact ⟨fun e => ⟨h, e.1.symm, e.2.symm⟩, fun e => ⟨e.2.1.symm, e.2.2.symm⟩⟩

theorem run_zero (s : State) : run 0 s = if s.status = .running then .outOfFuel s else .ended s := rfl

theorem run_stop {n} {s : State} (h : s.status ≠ .running) : run n s = .ended s := by
  cases n <;> simp [run, h]

theorem run_step {n} {s t : State} (hs : step s = .next t) : run (n+1) s = run n t := by
  have := (step_next.1 hs).1
  simp [run, this, hs]

/-- One induction for every claim about runs that end. -/
theorem run_induct {P : State → State → Prop} (h0 : ∀ s, s.status ≠ .running → P s s)
   (h1 : ∀ s t u, step s = .next t → P t u → P s u) : ∀ n s u, run n s = .ended u → P s u := by
  intro n
  induction n with
  | zero => intro s u h; rw [run_zero] at h; split at h <;> simp at h; subst h; exact h0 _ (by assumption)
  | succ n ih =>
    intro s u h
    by_cases hr : s.status = .running
    · obtain ⟨t, ht⟩ := step_is_next hr
      rw [run_step ht] at h
      exact h1 s t u ht (ih t u h)
    · rw [run_stop hr] at h; cases h; exact h0 _ hr

theorem returnFrom_after {n : Nat} {s s0 t : State} (h : (returnFrom (run n s)).stateAfter s0 = some t) :
    run n s = .ended t := by
  cases hr : run n s with
  | ended u => rw [hr] at h; simp [returnFrom, CallOutcome.stateAfter] at h; rw [h]
  | outOfFuel u => rw [hr] at h; simp [returnFrom, CallOutcome.stateAfter] at h
  | faulted u => rw [hr] at h; simp [returnFrom, CallOutcome.stateAfter] at h
  | refused u => rw [hr] at h; simp [returnFrom, CallOutcome.stateAfter] at h

/-- What a host call does to the state: a call that runs nothing, a call that changes nothing, or a run. -/
theorem stateAfter_cases {n k s t} (h : HostCall.stateAfter n s k = some t) :
   (k ≠ .execute ∧ k ≠ .resume) ∨ t = s ∨
   ((k = .execute ∧ s.status = .ready ∨ k = .resume ∧ s.status = .suspended)
      ∧ run n { s with status := .running } = .ended t) := by
  cases k with
  | execute =>
    simp only [HostCall.stateAfter, State.execute] at h
    right
    split at h
    · next hs => exact Or.inr ⟨Or.inl ⟨rfl, hs⟩, returnFrom_after h⟩
    all_goals simp [CallOutcome.stateAfter] at h; exact Or.inl h.symm
  | resume =>
    simp only [HostCall.stateAfter, State.resume] at h
    right
    split at h
    case h_3 hs => exact Or.inr ⟨Or.inr ⟨rfl, hs⟩, returnFrom_after h⟩
    all_goals simp [CallOutcome.stateAfter] at h; exact Or.inl h.symm
  | _ => left; simp

/-- Everything a host call that runs nothing does. -/
theorem stateAfter_simple {n k s t} (h1 : k ≠ .execute) (h2 : k ≠ .resume) (h : HostCall.stateAfter n s k = some t) :
    t = s
    ∨ (∃ v, k = .writeInput v ∧ s.writeInput v = .ok t)
    ∨ (∃ o, k = .readOutput ∧ s.readOutput = .ok (o, t))
    ∨ (∃ a v, k = .writeMem a v ∧ s.writeMem a v = .ok t) := by
  cases k with
  | execute => exact absurd rfl h1
  | resume => exact absurd rfl h2
  | writeInput v =>
    simp only [HostCall.stateAfter] at h
    split at h
    · next u hu => simp at h; subst h; exact Or.inr (Or.inl ⟨v, rfl, hu⟩)
    · simp at h; exact Or.inl h.symm
  | readOutput =>
    simp only [HostCall.stateAfter] at h
    split at h
    · next o u hu => simp at h; subst h; exact Or.inr (Or.inr (Or.inl ⟨o, rfl, hu⟩))
    · simp at h; exact Or.inl h.symm
  | readMem a => simp only [HostCall.stateAfter] at h; simp at h; exact Or.inl h.symm
  | writeMem a v =>
    simp only [HostCall.stateAfter] at h
    split at h
    · next u hu => simp at h; subst h; exact Or.inr (Or.inr (Or.inr ⟨a, v, rfl, hu⟩))
    · simp at h; exact Or.inl h.symm
  | clone =>
    simp only [HostCall.stateAfter] at h
    split at h
    · next u v hu =>
      simp at h; subst h
      unfold State.clone at hu
      split at hu <;> simp at hu
      exact Or.inl hu.1.symm
    · simp at h; exact Or.inl h.symm

end Sys2Proof.Machine
end

