-- ==== Sys2Proof/Laws/PerInstr.lean ====
section
/-! SUPPORT. What holds of every instruction as syntax, one lemma per constructor. -/

/-- The digits of an instruction's word are its opcode and the modes of its parameters, with nothing above them (R78). -/
def Sys2Proof.Laws.EncodingShape.Statement (i : Sys2Proof.Instr) : Prop :=
  i.word % 100 = i.opcode ∧ Sys2Proof.modesMatch i.word 1 i.params ∧ i.word / 10 ^ (i.arity + 2) = 0

theorem Sys2Proof.Laws.EncodingShape.add (a b c : Sys2Proof.Param) :
    Sys2Proof.Laws.EncodingShape.Statement (.add a b c) := Sys2Proof.encode_word _

theorem Sys2Proof.Laws.EncodingShape.mul (a b c : Sys2Proof.Param) :
    Sys2Proof.Laws.EncodingShape.Statement (.mul a b c) := Sys2Proof.encode_word _

theorem Sys2Proof.Laws.EncodingShape.inp (a : Sys2Proof.Param) :
    Sys2Proof.Laws.EncodingShape.Statement (.inp a) := Sys2Proof.encode_word _

theorem Sys2Proof.Laws.EncodingShape.out (a : Sys2Proof.Param) :
    Sys2Proof.Laws.EncodingShape.Statement (.out a) := Sys2Proof.encode_word _

theorem Sys2Proof.Laws.EncodingShape.jt (a b : Sys2Proof.Param) :
    Sys2Proof.Laws.EncodingShape.Statement (.jt a b) := Sys2Proof.encode_word _

theorem Sys2Proof.Laws.EncodingShape.jf (a b : Sys2Proof.Param) :
    Sys2Proof.Laws.EncodingShape.Statement (.jf a b) := Sys2Proof.encode_word _

theorem Sys2Proof.Laws.EncodingShape.lt (a b c : Sys2Proof.Param) :
    Sys2Proof.Laws.EncodingShape.Statement (.lt a b c) := Sys2Proof.encode_word _

theorem Sys2Proof.Laws.EncodingShape.eq (a b c : Sys2Proof.Param) :
    Sys2Proof.Laws.EncodingShape.Statement (.eq a b c) := Sys2Proof.encode_word _

theorem Sys2Proof.Laws.EncodingShape.arb (a : Sys2Proof.Param) :
    Sys2Proof.Laws.EncodingShape.Statement (.arb a) := Sys2Proof.encode_word _

theorem Sys2Proof.Laws.EncodingShape.hlt :
    Sys2Proof.Laws.EncodingShape.Statement .hlt := Sys2Proof.encode_word _
end

