-- ==== Sys2Proof/Tests/Slice0.lean ====
section
/-! SUPPORT. The model's own tests. Every expected value is written from spec/ (most from the vectors of 95_test_vectors.md,
whose names the comments give), none from a run of the model. The second half shows, for every statement with hypotheses,
a concrete case that meets them. -/

namespace Sys2Proof.Tests

open Sys2Proof.Machine

/-- The launch state of a tape, set Running, with the given input queue, base and parameters. -/
def tape (ws : List Int) (inq : List Int := []) (rb : Int := 0) (c : Config := Config.standard) : State :=
  { cfg := c, mem := Memory.load 0 ws, ip := 0, rb := rb, status := .running, inq := inq, outq := [], fault := none }

/-- The state after a step, where it is a next state. -/
def after (s : State) : Option State :=
  match step s with
  | .next t => some t
  | .fault _ => none
  | .refused _ => none

/-- What one looks at after a step. -/
def seen {α : Type} (s : State) (f : State → α) : Option α := (after s).map f

/-- Status, the whole fault record and what must be unchanged, after a step that faults. -/
def faultOf (s : State) : Option (FaultRecord × Bool) :=
  (after s).bind fun t => t.fault.map fun r => (r, decide (t = { s with status := .faulted, fault := some r }))

/-- A small memory. -/
def small (n : Nat) (x : ExtraModeDigits := .ignore) : Config := { wordBits := 64, memSize := n, extraModeDigits := x }

/-! ### Well-formedness: each check refuses an ill-formed term -/

theorem test_wf_add_first : (Instr.add ⟨.position, 2 ^ 63⟩ ⟨.immediate, 0⟩ ⟨.position, 0⟩).wellFormed 64 = false := by decide
theorem test_wf_mul_second : (Instr.mul ⟨.position, 0⟩ ⟨.relative, -2 ^ 63 - 1⟩ ⟨.position, 0⟩).wellFormed 64 = false := by
  decide
theorem test_wf_lt_third : (Instr.lt ⟨.position, 0⟩ ⟨.position, 0⟩ ⟨.relative, 2 ^ 63⟩).wellFormed 64 = false := by decide
theorem test_wf_out : (Instr.out ⟨.immediate, 2 ^ 63⟩).wellFormed 64 = false := by decide
theorem test_wf_limits : (Instr.jt ⟨.immediate, 2 ^ 63 - 1⟩ ⟨.position, -2 ^ 63⟩).wellFormed 64 = true := by decide
theorem test_executable_form_add : (Instr.add ⟨.position, 0⟩ ⟨.position, 0⟩ ⟨.immediate, 0⟩).executableForm = false := by
  decide
theorem test_executable_form_in : (Instr.inp ⟨.immediate, 0⟩).executableForm = false := by decide

/-! ### Decoding: one word per instruction, written digit by digit from its encoding line -/

/-- DE2: `1 + 100*0 + 1000*1 + 10000*2` (R120). -/
theorem test_decode_add :
    decode .ignore [21001, 9, 3, -1] = .ok (.add ⟨.position, 9⟩ ⟨.immediate, 3⟩ ⟨.relative, -1⟩, []) := by decide
/-- DE1: `2 + 100*0 + 1000*1 + 10000*0` (R125). -/
theorem test_decode_mul :
    decode .fault [1002, 4, 3, 4, 33] = .ok (.mul ⟨.position, 4⟩ ⟨.immediate, 3⟩ ⟨.position, 4⟩, [33]) := by decide
theorem test_decode_in : decode .fault [203, 5] = .ok (.inp ⟨.relative, 5⟩, []) := by decide
theorem test_decode_out : decode .fault [104, -7] = .ok (.out ⟨.immediate, -7⟩, []) := by decide
theorem test_decode_jt : decode .fault [2105, 1, 5] = .ok (.jt ⟨.immediate, 1⟩ ⟨.relative, 5⟩, []) := by decide
theorem test_decode_jf : decode .fault [1006, 5, 6] = .ok (.jf ⟨.position, 5⟩ ⟨.immediate, 6⟩, []) := by decide
theorem test_decode_lt :
    decode .fault [10107, 3, 8, 5] = .ok (.lt ⟨.immediate, 3⟩ ⟨.position, 8⟩ ⟨.immediate, 5⟩, []) := by decide
theorem test_decode_eq :
    decode .fault [20108, 5, 6, 7] = .ok (.eq ⟨.immediate, 5⟩ ⟨.position, 6⟩ ⟨.relative, 7⟩, []) := by decide
theorem test_decode_arb : decode .fault [209, 1] = .ok (.arb ⟨.relative, 1⟩, []) := by decide
theorem test_decode_hlt : decode .fault [99, 1] = .ok (.hlt, [1]) := by decide

/-- Rejected by name: DE3 to DE7, DE13, DE14, HL2, a missing parameter word. -/
theorem test_decode_rejects :
    [decode .ignore [0], decode .ignore [-1], decode .ignore [98], decode .ignore [10], decode .ignore [301, 0, 0, 0],
      decode .ignore [30001, 0, 0, 0], decode .ignore [3301, 0, 0, 0], decode .fault [199], decode .ignore [1, 0, 0]]
    = [.error .illegalOpcode, .error .illegalOpcode, .error .illegalOpcode, .error .illegalOpcode, .error (.illegalMode 1),
      .error (.illegalMode 3), .error (.illegalMode 1), .error (.illegalMode 1), .error (.missing 3)] := by decide

/-! ### Bits, and placing an instruction for the next fetch (log 7, log 9) -/

theorem test_table_word_out : decodeTableWord 8 4 = some (.out ⟨.position, 0⟩) := by decide
theorem test_table_word_lt :
    decodeTableWord 256 (1107 + 2 ^ 64 * (2 ^ 64 - 1) + 2 ^ 128 * 8 + 2 ^ 192 * 5)
      = some (.lt ⟨.immediate, -1⟩ ⟨.immediate, 8⟩ ⟨.position, 5⟩) := by decide
theorem test_table_word_illegal : decodeTableWord 8 0 = none := by decide
theorem test_fetch_word_hlt : seen (State.reset.withFetchWord 8 99) State.status = some .terminated := by decide
theorem test_fetch_word_out :
    seen (State.reset.withFetchWord 128 (104 + 2 ^ 64 * 7)) State.outq = some [7] := by decide

/-! ### One step of each instruction -/

/-- RB3, step 2: Relative operands under a negative base. -/
theorem test_add_relative :
    seen { tape [109, -3, 22201, 3, 4, 5, 99] with ip := 2, rb := -3 } (fun t => (t.mem.read 2, t.ip)) = some (106, 6) := by
  decide
/-- A3: the operands are read before the write. -/
theorem test_add_aliasing : seen (tape [1, 5, 5, 5, 99, 21]) (fun t => t.mem.read 5) = some 42 := by decide
/-- M1. -/
theorem test_mul_signed : seen (tape [1102, -3, 4, 0, 99]) (fun t => (t.mem.read 0, t.ip)) = some (-12, 4) := by decide
/-- M5: the most negative word is a word. -/
theorem test_mul_limit :
    seen (tape [1102, -4611686018427387904, 2, 0, 99]) (fun t => t.mem.read 0) = some (-9223372036854775808) := by decide
/-- I3: first in, first out, and the opcode word overwritten. -/
theorem test_in_fifo :
    seen (tape [3, 0, 99] [-5, 6]) (fun t => (t.mem.read 0, t.inq, t.ip)) = some (-5, [6], 2) := by decide
/-- I2: the step changes the status alone. -/
theorem test_in_suspends : after (tape [3, 3, 99, 0]) = some { tape [3, 3, 99, 0] with status := .suspended } := by decide
/-- O1. -/
theorem test_out_position : seen (tape [4, 3, 99, -7]) (fun t => (t.outq, t.ip)) = some ([-7], 2) := by decide
/-- O3: a zero is an output. -/
theorem test_out_zero : seen { tape [104, 0, 99] with outq := [8] } State.outq = some [8, 0] := by decide
/-- J5: a Relative target. -/
theorem test_jt_relative_target : seen (tape [2105, 1, 5, 0, 0, 0, 0, 11] [] 2) State.ip = some 11 := by decide
/-- J3, S8. -/
theorem test_jt_not_taken : seen (tape [1105, 0, 7, 99]) State.ip = some 3 := by decide
/-- J6, S8. -/
theorem test_jf_taken : seen (tape [1106, 0, 7]) State.ip = some 7 := by decide
/-- J7: a negative condition is not zero. -/
theorem test_jf_not_taken : seen (tape [1006, 5, 6, 99, 0, -1, 0]) State.ip = some 3 := by decide
/-- CM3: the comparison is signed. -/
theorem test_lt_signed : seen (tape [1107, -1, 0, 5, 99, -1]) (fun t => (t.mem.read 5, t.ip)) = some (1, 4) := by decide
/-- CM2: the comparison is strict. -/
theorem test_lt_strict : seen (tape [1107, 8, 8, 5, 99, -1]) (fun t => t.mem.read 5) = some 0 := by decide
/-- CM7: an operand and the destination are the opcode word. -/
theorem test_eq_same : seen (tape [8, 0, 0, 0, 99]) (fun t => (t.mem.read 0, t.ip)) = some (1, 4) := by decide
/-- CM6. -/
theorem test_eq_differs : seen (tape [1108, 5, 6, 0, 99]) (fun t => t.mem.read 0) = some 0 := by decide
/-- RB1. -/
theorem test_arb_adds : seen (tape [109, 19, 99] [] 2000) (fun t => (t.rb, t.ip)) = some (2019, 2) := by decide
/-- RB4: the operand is read with the old base. -/
theorem test_arb_relative : seen (tape [209, 1, 99]) State.rb = some 1 := by decide
/-- HL1. -/
theorem test_hlt : after (tape [99]) = some { tape [99] with status := .terminated } := by decide
/-- HL2 under Ignore. -/
theorem test_hlt_extra_digits : seen (tape [199]) State.status = some .terminated := by decide

/-! ### Faults: the record, and nothing else changed -/

/-- A4. -/
theorem test_fault_overflow :
    faultOf (tape [1101, 9223372036854775807, 1, 0, 99]) = some (⟨.arithOverflow, 0, some 1101, 0, none⟩, true) := by decide
/-- M8: the boundary moves with `WORD_BITS`. -/
theorem test_no_overflow_at_128 :
    seen (tape [1102, 4611686018427387904, 2, 0, 99] [] 0 ⟨128, 4096, .ignore⟩) (fun t => t.mem.read 0)
      = some 9223372036854775808 := by decide
/-- RB5, step 2. -/
theorem test_fault_base_overflow :
    faultOf { tape [109, 9223372036854775807, 109, 1, 99] with ip := 2, rb := 9223372036854775807 }
      = some (⟨.arithOverflow, 2, some 109, 0, none⟩, true) := by decide
/-- I5: the destination faults before the empty queue is seen. -/
theorem test_fault_before_suspend :
    faultOf (tape [103, 0, 99]) = some (⟨.immediateWrite, 0, some 103, 1, none⟩, true) := by decide
/-- DE3: a padding word. -/
theorem test_fault_padding : faultOf (tape [0]) = some (⟨.illegalOpcode, 0, some 0, 0, none⟩, true) := by decide
/-- DE8 under Fault, and under Ignore. -/
theorem test_fault_extra_digit :
    faultOf (tape [100001, 0, 0, 0, 99] [] 0 (small 4096 .fault)) = some (⟨.illegalMode, 0, some 100001, 4, none⟩, true)
    ∧ seen (tape [100001, 0, 0, 0, 99]) (fun t => t.mem.read 0) = some 200002 := by decide
/-- DE9: a parameter word outside memory. -/
theorem test_fault_parameter_fetch :
    faultOf (tape [1, 0, 0] [] 0 (small 3)) = some (⟨.outOfBounds, 0, some 1, 3, some 3⟩, true) := by decide
/-- DE10: the first failing parameter. -/
theorem test_fault_first_parameter :
    faultOf (tape [1, 5000, 6000, 0, 99]) = some (⟨.outOfBounds, 0, some 1, 1, some 5000⟩, true) := by decide
/-- O4: a Relative address below 0. -/
theorem test_fault_negative_address :
    faultOf (tape [204, -1, 99]) = some (⟨.outOfBounds, 0, some 204, 1, some (-1)⟩, true) := by decide
/-- J8, step 2: the fetch itself faults. -/
theorem test_fault_fetch :
    faultOf { tape [1105, 1, -5] with ip := -5 } = some (⟨.outOfBounds, -5, none, 0, some (-5)⟩, true) := by decide
/-- P5, step 2. -/
theorem test_fault_immediate_write :
    faultOf { tape [1101, 2, 3, 5, 11101, 5, 9, 0, 99] with ip := 4 }
      = some (⟨.immediateWrite, 4, some 11101, 3, none⟩, true) := by decide

/-! ### The host -/

/-- S1. -/
theorem test_execute_hlt :
    ∃ t, { tape [99] with status := .ready }.execute 1 = .returned t (.ok .terminated 99) ∧ t.ip = 0 := ⟨_, rfl, rfl⟩
/-- S4: resume with no input blocks again in the same state; with one word it runs on and blocks at the next read. -/
theorem test_resume_blocks_again :
    { tape [3, 10, 3, 11, 99] with status := .suspended }.resume 5
      = .returned { tape [3, 10, 3, 11, 99] with status := .suspended } (.ok .suspended 3) := by decide
theorem test_resume_consumes_one :
    (match { tape [3, 10, 3, 11, 99] [1] with status := .suspended }.resume 5 with
      | .returned t r => some (t.mem.read 10, t.ip, t.inq, r)
      | _ => none) = some (1, 2, [], .ok .suspended 3) := by decide
/-- HO2. -/
theorem test_resume_from_ready :
    { tape [3, 0, 99] with status := .ready }.resume 5
      = .returned { tape [3, 0, 99] with status := .ready } (.ok .ready 3) := by decide
/-- J10: a run that does not end is not reported as ended. -/
theorem test_execute_out_of_fuel :
    { tape [1105, 1, 0] with status := .ready }.execute 3 = .outOfFuel (tape [1105, 1, 0]) := by decide
/-- HO6: the result of a faulted core is its record. -/
theorem test_execute_fault :
    ∃ t, { tape [0] with status := .ready }.execute 1
      = .returned t (.fault (some ⟨.illegalOpcode, 0, some 0, 0, none⟩)) := ⟨_, rfl⟩
/-- HO4, HO5, HO7. -/
theorem test_host_errors :
    { tape [99] with status := .ready }.readMem 4096 = .error .badAddress
    ∧ { tape [99] with status := .ready }.writeMem (-1) 5 = .error .badAddress
    ∧ State.new (small 1) [99, 99] = .error .programTooLong
    ∧ State.new Config.standard [9223372036854775808] = .error .notAWord := by decide
/-- HO9: none is not zero. -/
theorem test_read_output :
    { tape [99] with status := .ready, outq := [0] }.readOutput = .ok (some 0, { tape [99] with status := .ready })
    ∧ { tape [99] with status := .ready }.readOutput = .ok (none, { tape [99] with status := .ready }) := by decide
/-- R274 with one seed of each kind. -/
theorem test_launch :
    (launch Config.standard [3, 0, 99] [.input 5, .mem 4095 7]).map (fun s => (s.mem.read 0, s.mem.read 4095, s.inq, s.status))
      = .ok (3, 7, [5], .ready) := by decide
/-- R28, R221: the reporting codes. -/
theorem test_codes :
    [Status.ready, .running, .suspended, .terminated, .faulted].map Status.code = [0, 1, 2, 3, 4]
    ∧ [FaultCause.illegalOpcode, .outOfBounds, .immediateWrite, .illegalMode, .arithOverflow].map FaultCause.code
      = [1, 2, 3, 4, 5] := by decide
/-- P1 of 95_test_vectors.md, its assembly against its tape. -/
theorem test_assemble :
    assemble [.label "start", .instr 4 [(.position, .number 10)],
      .instr 1 [(.position, .number 10), (.immediate, .number (-1)), (.position, .number 10)],
      .instr 5 [(.position, .number 10), (.immediate, .label "start")], .instr 99 [], .data [3]]
    = some [4, 10, 1001, 10, -1, 10, 1005, 10, 0, 99, 3] := by decide
/-- R90's own example, P1 with a label, and R91's encodings. -/
theorem test_assemble_text :
    assembleText ["ADD [9], #3, [rb-1]"] = some [21001, 9, 3, -1]
    ∧ assembleText ["start: OUT [10]", "ADD [10], #-1, [10]", "JT [10], #start", "HLT", "DATA 3"]
      = some [4, 10, 1001, 10, -1, 10, 1005, 10, 0, 99, 3]
    ∧ assembleText ["JMP #7", "NOP", "MOV [rb+2], [0]"] = some [1105, 1, 7, 1106, 1, 0, 1201, 2, 0, 0]
    ∧ assembleText ["ADD [9], #3"] = none := by decide
/-- P3 of 95_test_vectors.md, with its labels and comments, against its tape. -/
theorem test_assemble_text_comments :
    assembleText ["ARB #100            ; rb <- 100", "push: IN  [rb+0]", "JF  [rb+0], #pop    ; input 0 ends the pushes",
      "ARB #1", "JMP #push", "pop: ARB #-1", "JF  [rb+0], #end    ; marker reached", "OUT [rb+0]", "JMP #pop", "end: HLT"]
      = some [109, 100, 203, 0, 1206, 0, 12, 109, 1, 1105, 1, 2, 109, -1, 1206, 0, 22, 204, 0, 1105, 1, 12, 99] := by decide
/-- Log 12: the first definition of a label counts, and a label may stand after `rb-`. -/
theorem test_assemble_text_choices :
    assembleText ["HLT", "x: HLT", "x: OUT [rb-x]"] = some [99, 99, 204, -1] ∧ assembleText ["OUT [rb--1]"] = none := by
  decide
/-- The same program, listed. -/
theorem test_listing :
    (listing .ignore [4, 10, 1005, 10, 0, 99, 98]).map ListingLine.text
      = ["OUT [10]", "JT [10], #0", "HLT", "DATA 98"] := by rfl

/-! ### Witnesses: for every statement with hypotheses, a case that meets them -/

/-- A program of one word in a memory of two: an address of each kind. -/
theorem witness_NewEstablishesResetValues :
    [(99 : Int)].length ≤ (small 2).memSize ∧ (∀ v ∈ [(99 : Int)], inWord (small 2).wordBits v)
    ∧ 0 < [(99 : Int)].length ∧ [(99 : Int)].length ≤ 1 ∧ 1 < (small 2).memSize := by decide

theorem witness_LaunchMeetsInvariant :
    Config.standard.valid ∧ ∃ s, launch Config.standard [3, 0, 99] [.input 5, .mem 4095 7] = .ok s :=
  ⟨by decide, _, rfl⟩

theorem witness_StepKeepsInvariant :
    (tape [22201, 3, 4, 0, 99] [1] (-3)).Inv ∧ ∃ t, step (tape [22201, 3, 4, 0, 99] [1] (-3)) = .next t :=
  ⟨by decide, _, rfl⟩

theorem witness_HostCallsKeepInvariant :
    { tape [99] with status := .ready }.Inv
    ∧ ∃ t, HostCall.stateAfter 1 { tape [99] with status := .ready } .execute = some t := ⟨by decide, _, rfl⟩

theorem witness_ReachableStatesMeetInvariant :
    Config.standard.valid ∧ Reachable Config.standard { tape [3, 0, 99] with status := .suspended } :=
  ⟨by decide, .stepped (tape [3, 0, 99]) _
    (.started { tape [3, 0, 99] with status := .ready } (.launched [3, 0, 99] _ rfl) (Or.inl rfl)) rfl⟩

theorem witness_EncodeOfDecode :
    decode .ignore [22207, -1, 2, 3, 99] = .ok (.lt ⟨.relative, -1⟩ ⟨.relative, 2⟩ ⟨.relative, 3⟩, [99])
    ∧ (22207 : Int).toNat / 10 ^ ((Instr.lt ⟨.relative, -1⟩ ⟨.relative, 2⟩ ⟨.relative, 3⟩).arity + 2) = 0 := by decide

theorem witness_TableWordOfEncode :
    (Instr.add ⟨.relative, 2 ^ 63 - 1⟩ ⟨.immediate, -2 ^ 63⟩ ⟨.position, 0⟩).wellFormed 64 = true := by decide

/-- One word of each length. -/
theorem witness_LengthDependsOnOpcodeAlone :
    decode .ignore [199, 5] = .ok (.hlt, [5]) ∧ decode .ignore [209, 1] = .ok (.arb ⟨.relative, 1⟩, [])
    ∧ decode .ignore [5, 1, 2] = .ok (.jt ⟨.position, 1⟩ ⟨.position, 2⟩, [])
    ∧ decode .ignore [8, 1, 2, 3] = .ok (.eq ⟨.position, 1⟩ ⟨.position, 2⟩ ⟨.position, 3⟩, []) := by decide

/-- Just below and at the first digit above the mode digits. -/
theorem witness_ExtraDigitsFollowParameter :
    Reference.arityOf (22201 % 100) = some 3 ∧ 22201 / 10 ^ 5 = 0
    ∧ Reference.arityOf (122201 % 100) = some 3 ∧ 122201 / 10 ^ 5 ≠ 0
    ∧ ∀ i, 1 ≤ i → i ≤ 3 → digit 122201 (i + 1) ≤ 2 :=
  ⟨by decide, by decide, by decide, by decide, fun i h1 h3 => by interval_cases i <;> decide⟩

theorem witness_PseudoInstructions :
    valueOf (tape [101, 0, 0, 3]) 1 ⟨.relative, 3⟩ = .ok 3 ∧ addressOf (tape [101, 0, 0, 3]) 3 ⟨.position, 4095⟩ = .ok 4095
    ∧ inWord 64 3 ∧ valueOf (tape [7]) 2 ⟨.position, 0⟩ = .ok 7
    ∧ valueOf (tape [7] [] 4095) 2 ⟨.relative, -4095⟩ = .ok 7 := by decide

theorem witness_ListingShowsInstructions :
    (-1 : Int) < 0 ∧ Reference.arityOf ((0 : Int).toNat % 100) = none ∧ Reference.arityOf ((110 : Int).toNat % 100) = none
    ∧ Reference.arityOf ((98 : Int).toNat % 100) = none
    ∧ decode .ignore [98] = .error .illegalOpcode ∧ decode .ignore [301, 0, 0, 0] = .error (.illegalMode 1)
    ∧ decode .fault [199] = .error (.illegalMode 1) ∧ [(99 : Int), 1].length ≤ 2 := by decide

/-- Verdicts of both kinds in one listing, under either setting (R83, R92). -/
theorem test_listing_illegal_verdicts :
    listing .ignore [301, 199, -1] = [.data 301, .instr .hlt, .data (-1)]
    ∧ listing .fault [301, 199, -1] = [.data 301, .data 199, .data (-1)] := by decide

/-- An instruction of four words at the very end of memory. -/
theorem witness_StepRunsDecodedInstruction :
    (tape [1101, 1, 2, 0] [] 0 (small 4)).status = .running
    ∧ decode .ignore (wordsFrom (tape [1101, 1, 2, 0] [] 0 (small 4)) 0 maxLength)
      = .ok (.add ⟨.immediate, 1⟩ ⟨.immediate, 2⟩ ⟨.position, 0⟩, [])
    ∧ ∀ (k : Nat) (h : k < (encode (.add ⟨.immediate, 1⟩ ⟨.immediate, 2⟩ ⟨.position, 0⟩)).length),
        inRange (small 4) (0 + k) ∧ (tape [1101, 1, 2, 0] [] 0 (small 4)).mem.read (0 + k : Int).toNat
          = (encode (.add ⟨.immediate, 1⟩ ⟨.immediate, 2⟩ ⟨.position, 0⟩))[k] := by decide

theorem witness_StepNeedsRunning : State.reset.status ≠ .running := by decide

theorem witness_StepFollowsTheStages : (tape [99]).status = .running := by decide

/-- Each of the four ways is taken. -/
theorem witness_RunningStepEndsInOneOfFourWays :
    seen (tape [104, 0]) State.status = some .running ∧ seen (tape [3, 0]) State.status = some .suspended
    ∧ seen (tape [99]) State.status = some .terminated ∧ seen (tape [0]) State.status = some .faulted := by decide

/-- A fault with an instruction word and one without. -/
theorem witness_FaultsArePrecise :
    (seen (tape [0]) fun t => (t.status, t.fault.bind FaultRecord.word)) = some (.faulted, some 0)
    ∧ (seen { tape [99] with ip := 4096 } fun t => (t.status, t.fault.bind FaultRecord.word)) = some (.faulted, none) := by
  decide

theorem witness_FetchOutsideMemoryFaults :
    { tape [99] with ip := -1 }.status = .running ∧ ({ tape [99] with ip := -1 } : State).ip < 0
    ∧ ({ tape [99] with ip := 4096 } : State).ip ≥ (4096 : Nat) := by decide

/-- At both ends of each range of illegal words. -/
theorem witness_IllegalOpcodesFault :
    inRange Config.standard (tape [-1]).ip
    ∧ (∀ w ∈ [(-1 : Int), 0, 100, 10, 98, 110], (tape [w]).status = .running ∧ (tape [w]).mem.read 0 = w)
    ∧ (-1 : Int) < 0 ∧ (0 : Int) % 100 = 0 ∧ (100 : Int) % 100 = 0
    ∧ 10 ≤ (10 : Int) % 100 ∧ (98 : Int) % 100 ≤ 98 ∧ 10 ≤ (110 : Int) % 100 ∧ (110 : Int) % 100 ≤ 98 := by decide

/-- For each opcode, an illegal digit in its last parameter behind legal ones, and its last parameter word just outside. -/
theorem witness_ModeDigitsAndParameterWordsAreChecked :
    (∀ p ∈ [(1, 3, 30001), (2, 3, 30002), (7, 3, 30007), (8, 3, 90008), (5, 2, 3005), (6, 2, 9206), (3, 1, 303), (4, 1, 904),
        (9, 1, 309)],
      Reference.arityOf p.1 = some p.2.1 ∧ (p.2.2 : Nat) % 100 = p.1 ∧ 2 < digit p.2.2 (p.2.1 + 1)
      ∧ (tape [(p.2.2 : Nat)]).status = .running ∧ inRange Config.standard (tape [(p.2.2 : Nat)]).ip
      ∧ (tape [(p.2.2 : Nat)]).mem.read 0 = (p.2.2 : Nat) ∧ ∀ j, j < p.2.1 → 1 ≤ j → digit p.2.2 (j + 1) ≤ 2)
    ∧ (∀ p ∈ [(1, 3), (2, 3), (7, 3), (8, 3), (5, 2), (6, 2), (3, 1), (4, 1), (9, 1)],
      (tape [(p.1 : Nat)] [] 0 (small p.2 .fault)).mem.read 0 = (p.1 : Nat) ∧ p.1 / 10 ^ (p.2 + 2) = 0
      ∧ (∀ j, j < p.2 → (0 : Int) + (j : Nat) < (small p.2 .fault).memSize) ∧ (0 : Int) + p.2 ≥ (small p.2 .fault).memSize
      ∧ ∀ j, j < p.2 + 1 → 1 ≤ j → digit p.1 (j + 1) ≤ 2) := by decide

/-- The first and the last address, and one beyond each, in both address modes. -/
theorem witness_ValueOfReadParameter_and_AddressOfWriteParameter :
    (∀ p ∈ [(0 : Int), 4095], 0 ≤ p ∧ p < Config.standard.memSize)
    ∧ (-1 : Int) < 0 ∧ (4096 : Int) ≥ Config.standard.memSize
    ∧ (∀ p ∈ [(3 : Int), 4098], 0 ≤ p + (tape [] [] (-3)).rb ∧ p + (tape [] [] (-3)).rb < Config.standard.memSize)
    ∧ (2 : Int) + (tape [] [] (-3)).rb < 0 ∧ (4099 : Int) + (tape [] [] (-3)).rb ≥ Config.standard.memSize := by decide

/-- At the ends of the range of a word, and one beyond. -/
theorem witness_AluFunctions :
    inWord 64 (9223372036854775806 + 1) ∧ ¬ inWord 64 (9223372036854775807 + 1)
    ∧ inWord 64 (-9223372036854775807 + -1) ∧ ¬ inWord 64 (-9223372036854775808 + -1)
    ∧ inWord 64 (-4611686018427387904 * 2) ∧ ¬ inWord 64 (4611686018427387904 * 2) := by decide

theorem witness_MemoryWriteReplacesOneWord :
    Memory.wf [(0, 99), (4, -1)] = true ∧ (4 : Nat) ≠ 0
    ∧ Memory.wf (Memory.write [(4, -1)] 0 99) = true ∧ ∀ a, a < 6 → Memory.read (Memory.write [(4, -1)] 0 99) a
      = Memory.read [(0, 99), (4, -1)] a := by decide

/-- Each clause of the rules of ADD, MUL, LT, EQ and of JT, JF: a first, a second and a third parameter that faults, operands
that resolve with a result that is a word and one that is not, a condition of either kind. -/
theorem witness_AddRule_MulRule_LtRule_EqRule_JtRule_JfRule :
    valueOf (tape []) 1 ⟨.position, 4096⟩ = .error ⟨.outOfBounds, 1, some 4096⟩
    ∧ valueOf (tape []) 2 ⟨.relative, -1⟩ = .error ⟨.outOfBounds, 2, some (-1)⟩
    ∧ addressOf (tape []) 3 ⟨.immediate, 0⟩ = .error ⟨.immediateWrite, 3, none⟩
    ∧ addressOf (tape []) 3 ⟨.position, 4096⟩ = .error ⟨.outOfBounds, 3, some 4096⟩
    ∧ addressOf (tape []) 3 ⟨.position, 4095⟩ = .ok 4095
    ∧ valueOf (tape []) 1 ⟨.immediate, 9223372036854775807⟩ = .ok 9223372036854775807
    ∧ valueOf (tape []) 2 ⟨.immediate, 2⟩ = .ok 2 ∧ valueOf (tape []) 1 ⟨.position, 0⟩ = .ok 0
    ∧ ¬ inWord 64 (9223372036854775807 + 2) ∧ ¬ inWord 64 (9223372036854775807 * 2)
    ∧ inWord 64 (0 + 2) ∧ inWord 64 (0 * 2) ∧ (9223372036854775807 : Int) ≠ 0 := by decide

/-- The clauses of IN: a destination that faults, and one that resolves, with the queue empty and not. -/
theorem witness_InRule :
    addressOf (tape []) 1 ⟨.immediate, 0⟩ = .error ⟨.immediateWrite, 1, none⟩
    ∧ addressOf (tape []) 1 ⟨.position, 4096⟩ = .error ⟨.outOfBounds, 1, some 4096⟩
    ∧ addressOf (tape []) 1 ⟨.position, 4095⟩ = .ok 4095 ∧ (tape []).inq = []
    ∧ addressOf (tape [] [7]) 1 ⟨.relative, 0⟩ = .ok 0 ∧ (tape [] [7]).inq = 7 :: [] := by decide

theorem witness_OutRule :
    valueOf (tape []) 1 ⟨.position, -1⟩ = .error ⟨.outOfBounds, 1, some (-1)⟩ ∧ valueOf (tape [5]) 1 ⟨.position, 0⟩ = .ok 5 := by
  decide

/-- The clauses of ARB: a base just inside the range of a word, and one just outside. -/
theorem witness_ArbRule :
    valueOf (tape []) 1 ⟨.position, -1⟩ = .error ⟨.outOfBounds, 1, some (-1)⟩
    ∧ valueOf (tape []) 1 ⟨.immediate, 1⟩ = .ok 1
    ∧ inWord 64 ((tape [] [] 9223372036854775806).rb + 1) ∧ ¬ inWord 64 ((tape [] [] 9223372036854775807).rb + 1) := by decide

/-- A word of opcode 99 with and without extra digits, under either setting. -/
theorem witness_HltRule :
    ∀ x ∈ [ExtraModeDigits.ignore, .fault], ∀ w ∈ [99, 199],
      (tape [(w : Nat)] [] 0 (small 1 x)).status = .running ∧ inRange (small 1 x) (tape [(w : Nat)] [] 0 (small 1 x)).ip
      ∧ (tape [(w : Nat)] [] 0 (small 1 x)).mem.read 0 = (w : Nat) ∧ (w : Nat) % 100 = 99 := by decide

/-- For each storing instruction, a next state with a destination that resolves and one with a destination that faults. -/
theorem witness_StoringInstructionsFrame :
    (∀ i ∈ [Instr.add ⟨.position, 0⟩ ⟨.immediate, 1⟩ ⟨.position, 4095⟩, .mul ⟨.position, 0⟩ ⟨.immediate, 1⟩ ⟨.position, 4095⟩,
        .lt ⟨.position, 0⟩ ⟨.immediate, 1⟩ ⟨.position, 4095⟩, .eq ⟨.position, 0⟩ ⟨.immediate, 1⟩ ⟨.position, 4095⟩],
      ∃ t, exec i (tape [7]) = .next t)
    ∧ addressOf (tape [7]) 3 ⟨.position, 4095⟩ = .ok 4095 ∧ (0 : Nat) ≠ 4095
    ∧ (∃ t, exec (.add ⟨.position, 0⟩ ⟨.immediate, 1⟩ ⟨.position, 4096⟩) (tape [7]) = .next t)
    ∧ addressOf (tape [7]) 3 ⟨.position, 4096⟩ = .error ⟨.outOfBounds, 3, some 4096⟩ := by
  refine ⟨?_, by decide, by decide, ⟨_, rfl⟩, by decide⟩
  intro i hi
  simp only [List.mem_cons, List.not_mem_nil, or_false] at hi
  rcases hi with rfl | rfl | rfl | rfl <;> exact ⟨_, rfl⟩

theorem witness_InFrame :
    (∃ t, exec (.inp ⟨.position, 4095⟩) (tape [] [7]) = .next t) ∧ addressOf (tape [] [7]) 1 ⟨.position, 4095⟩ = .ok 4095
    ∧ (∃ t, exec (.inp ⟨.position, 4096⟩) (tape []) = .next t)
    ∧ addressOf (tape []) 1 ⟨.position, 4096⟩ = .error ⟨.outOfBounds, 1, some 4096⟩ :=
  ⟨⟨_, rfl⟩, by decide, ⟨_, rfl⟩, by decide⟩

theorem witness_NonStoringInstructionsFrame :
    ∀ i ∈ [Instr.out ⟨.position, 0⟩, .jt ⟨.position, 0⟩ ⟨.immediate, 1⟩, .jf ⟨.position, 0⟩ ⟨.immediate, 1⟩,
        .arb ⟨.position, 0⟩, .hlt],
      ∃ t, exec i (tape [7]) = .next t := by
  intro i hi
  simp only [List.mem_cons, List.not_mem_nil, or_false] at hi
  rcases hi with rfl | rfl | rfl | rfl | rfl <;> exact ⟨_, rfl⟩

theorem witness_RelativeBaseIsPrivateToArbAndRelativeMode :
    (∃ t, step (tape [109, 19]) = .next t ∧ t.rb ≠ (tape [109, 19]).rb)
    ∧ (∀ p ∈ (Instr.out ⟨.position, 0⟩).params, p.mode ≠ .relative) ∧ (∀ a, Instr.out ⟨.position, 0⟩ ≠ .arb a)
    ∧ (∃ s, State.new Config.standard [99] = .ok s)
    ∧ inWord 64 ((tape []).rb + -9223372036854775808)
    ∧ ∃ t, HostCall.stateAfter 0 State.reset (.writeMem 0 1) = some t :=
  ⟨⟨_, rfl, by decide⟩, by decide, (fun a h => by cases h), ⟨_, rfl⟩, by decide, ⟨_, rfl⟩⟩

theorem witness_InputIsConsumedOnceInOrder :
    (∃ t, State.reset.writeInput 5 = .ok t)
    ∧ (∃ t, step (tape [3, 0] [5, 6]) = .next t ∧ t.inq = [6])
    ∧ (∃ t, step (tape [3, 0]) = .next t ∧ t.status = .suspended)
    ∧ fetchInstr (tape [3, 0] [5, 6]) = .ok (.inp ⟨.position, 0⟩)
    ∧ addressOf (tape [3, 0] [5, 6]) 1 ⟨.position, 0⟩ = .ok 0 ∧ (tape [3, 0] [5, 6]).inq = 5 :: [6]
    ∧ ∃ t, HostCall.stateAfter 0 State.reset .readOutput = some t :=
  ⟨⟨_, rfl⟩, ⟨_, rfl, rfl⟩, ⟨_, rfl, rfl⟩, by decide, by decide, by decide, ⟨_, rfl⟩⟩

theorem witness_OutputIsProducedInOrder :
    (∃ t, step (tape [104, 5]) = .next t ∧ t.outq = [5])
    ∧ ∃ t, HostCall.stateAfter 0 { State.reset with outq := [5, 6] } .readOutput = some t ∧ t.outq = [6] :=
  ⟨⟨_, rfl, rfl⟩, ⟨_, rfl, rfl⟩⟩

theorem witness_OutputNeverInfluencesTheCore : ∃ t, step (tape [104, 5]) = .next t := ⟨_, rfl⟩

/-- S4: the run blocks twice; the second run has the words that come later. -/
theorem witness_InputTimingDoesNotMatter :
    ∃ t u, run 2 (tape [3, 10, 3, 11, 99] [1]) = .ended t ∧ t.status = .suspended
      ∧ run 2 { t with inq := t.inq ++ [2], status := .running } = .ended u ∧ u.status = .terminated :=
  ⟨_, _, rfl, rfl, rfl, rfl⟩

theorem witness_RunRepeatsTheStep :
    State.reset.status ≠ .running ∧ (tape [99]).status = .running
    ∧ (∃ t, run 0 (tape [99]) = .outOfFuel t) ∧ ∃ t, run 1 (tape [99]) = .ended t :=
  ⟨by decide, by decide, ⟨_, rfl⟩, ⟨_, rfl⟩⟩

theorem witness_RunEndsSuspendedTerminatedOrFaulted :
    (tape [99]).status = .running ∧ { tape [99] with status := .suspended }.status = .suspended
    ∧ (∃ t, HostCall.stateAfter 1 { tape [99] with status := .terminated } .execute = some t)
    ∧ (∃ t, HostCall.stateAfter 1 { tape [99] with status := .faulted } .resume = some t)
    ∧ State.reset.status = .ready ∧ ∃ t, run 0 { State.reset with status := .running } = .outOfFuel t :=
  ⟨rfl, rfl, ⟨_, rfl⟩, ⟨_, rfl⟩, rfl, ⟨_, rfl⟩⟩

/-- For execute and resume: a run that ends and one that does not, and each of the other statuses is a literal. -/
theorem witness_ExecuteStartsARunFromReady_and_ResumeContinuesASuspendedRun :
    (∃ t, run 1 { { tape [99] with status := .ready } with status := .running } = .ended t)
    ∧ (∃ t, run 1 { { tape [104, 5, 99] with status := .suspended } with status := .running } = .outOfFuel t)
    ∧ ∀ x : Status, { tape [99] with status := x }.status = x := ⟨⟨_, rfl⟩, ⟨_, rfl⟩, fun _ => rfl⟩

theorem witness_ResultIsStatusAndWordZeroOrFault :
    { tape [99] with status := .faulted }.status = .faulted ∧ { tape [99] with status := .suspended }.status ≠ .faulted := by
  decide

theorem witness_SuspendedWaitsForResume :
    (∃ t, step (tape [3, 0]) = .next t ∧ t.status = .suspended)
    ∧ { tape [3, 0] with status := .suspended }.status = .suspended
    ∧ (∃ t, HostCall.stateAfter 1 { tape [3, 0] with status := .suspended } (.writeInput 5) = some t)
    ∧ { tape [3, 0] with status := .suspended }.inq = []
    ∧ fetchInstr { tape [3, 0] with status := .suspended } = .ok (.inp ⟨.position, 0⟩)
    ∧ addressOf { tape [3, 0] with status := .suspended } 1 ⟨.position, 0⟩ = .ok 0
    ∧ ∃ t, HostCall.stateAfter 1 { tape [99] with status := .terminated } .resume = some t :=
  ⟨⟨_, rfl, rfl⟩, rfl, ⟨_, rfl⟩, rfl, by decide, by decide, ⟨_, rfl⟩⟩

theorem witness_FaultedIsPermanent :
    { tape [0] with status := .faulted }.status = .faulted
    ∧ ∃ t, HostCall.stateAfter 1 { tape [0] with status := .faulted } (.writeMem 0 99) = some t := ⟨rfl, _, rfl⟩

theorem witness_HostCallsMoveStatusAsTabled :
    ∃ t, HostCall.stateAfter 1 { tape [99] with status := .ready } .execute = some t ∧ t.status = .terminated := ⟨_, rfl, rfl⟩

/-- The first and the last address, and one beyond each; the smallest and the largest word. -/
theorem witness_HostReadsAndWritesMemory_and_HostReadsAndWritesQueues :
    State.reset.status ≠ .running ∧ (∀ a ∈ [(0 : Int), 4095], inRange Config.standard a)
    ∧ (∀ a ∈ [(-1 : Int), 4096], ¬ inRange Config.standard a)
    ∧ (∀ v ∈ [(-9223372036854775808 : Int), 9223372036854775807], inWord 64 v)
    ∧ State.reset.outq = [] ∧ { State.reset with outq := [5, 6] }.outq = 5 :: [6] := by decide

theorem witness_CloneCopiesTheWholeState : { tape [3, 0] [] (-3) with status := .suspended }.status ≠ .running := by decide

theorem witness_HostIsNotAcceptedWhileRunning :
    (tape [99]).status = .running ∧ ∃ t, HostCall.stateAfter 1 (tape [99]) .execute = some t := ⟨rfl, _, rfl⟩

end Sys2Proof.Tests
end

section
/-! PROOFS. The relative base (10_state.md R24): only ARB writes it, only the Relative mode reads it, and the host's calls
that run nothing neither write nor read it. "Does not read it" is said as: the operation commutes with putting another
base in place. -/

namespace Sys2Proof.Machine

/-- The state with another relative base. -/
def State.withBase (r : Int) (s : State) : State := { s with rb := r }

/-! ### Who writes the base -/

/-- An effect keeps the base, unless it is that of ARB. -/
theorem effectOf_rb {i : Instr} {s t : State} (h : effectOf i s = .ok t) : t.rb = s.rb ∨ ∃ a, i = .arb a := by
  cases i with
  | add a b c | mul a b c | lt a b c | eq a b c => obtain ⟨x, y, d, r, -, -, -, -, rfl⟩ := alu3_ok.1 h; exact .inl rfl
  | inp a => obtain ⟨d, -, ⟨-, rfl⟩ | ⟨v, rest, -, rfl⟩⟩ := inputEffect_ok.1 h <;> exact .inl rfl
  | out a => obtain ⟨x, -, rfl⟩ := outputEffect_ok.1 h; exact .inl rfl
  | jt a b | jf a b => obtain ⟨x, y, -, -, rfl⟩ := jump2_ok.1 h; left; split <;> rfl
  | arb a => exact .inr ⟨a, rfl⟩
  | hlt => cases h; exact .inl rfl

/-- A step that changes the base is of ARB; the entry into a fault keeps it. -/
theorem fetch_arb_of_step_rb_ne {s t : State} (h : step s = .next t) (hne : t.rb ≠ s.rb) :
    ∃ a, fetchInstr s = .ok (.arb a) := by
  obtain ⟨-, ⟨i, hf, he⟩ | ⟨f, -, rfl⟩⟩ := step_next.1 h
  · obtain ht | ⟨f, -, rfl⟩ := exec_next.1 he
    · obtain hrb | ⟨a, rfl⟩ := effectOf_rb ht
      · exact absurd hrb hne
      · exact ⟨a, hf⟩
    · exact absurd (State.raise_rb s f) hne
  · exact absurd (State.raise_rb s f) hne

/-- ARB with an Immediate operand takes the base to any word, negative ones included. -/
theorem exec_arb_immediate {s : State} {x : Int} (h : inWord s.cfg.wordBits (s.rb + x)) :
    exec (.arb ⟨.immediate, x⟩) s = .next { s with rb := s.rb + x, ip := s.ip + 2 } :=
  exec_next.2 (.inl (adjustBase_ok.2 ⟨x, rfl, h, rfl⟩))

/-- A host call that is no run keeps the base. -/
theorem stateAfter_rb {fuel : Nat} {k : HostCall} {s t : State} (hx : k ≠ .execute) (hr : k ≠ .resume)
    (h : k.stateAfter fuel s = some t) : t.rb = s.rb := by
  obtain rfl | ⟨v, -, hk⟩ | ⟨o, -, hk⟩ | ⟨a, v, -, hk⟩ := stateAfter_simple hx hr h
  · rfl
  · obtain ⟨-, -, rfl⟩ := writeInput_ok.1 hk; rfl
  · obtain ⟨-, -, rfl⟩ := readOutput_ok.1 hk; rfl
  · obtain ⟨-, -, -, rfl⟩ := writeMem_ok.1 hk; rfl

/-! ### Who reads the base -/

section
variable (r : Int) (s : State)

theorem paramAddress_withBase {p : Param} (hp : p.mode ≠ .relative) :
    paramAddress (s.withBase r) p = paramAddress s p := by
  unfold paramAddress
  cases hm : p.mode with
  | position => rfl
  | immediate => rfl
  | relative => exact absurd hm hp

theorem valueOf_withBase (i : Nat) {p : Param} (hp : p.mode ≠ .relative) :
    valueOf (s.withBase r) i p = valueOf s i p := by
  unfold valueOf; rw [paramAddress_withBase r s hp]; rfl

theorem addressOf_withBase (i : Nat) {p : Param} (hp : p.mode ≠ .relative) :
    addressOf (s.withBase r) i p = addressOf s i p := by
  unfold addressOf; rw [paramAddress_withBase r s hp]; rfl

theorem alu3_withBase (f : Config → Int → Int → Except FaultInfo Int) {a b c : Param} (ha : a.mode ≠ .relative)
    (hb : b.mode ≠ .relative) (hc : c.mode ≠ .relative) :
    alu3 f a b c (s.withBase r) = State.withBase r <$> alu3 f a b c s := by
  simp only [alu3, valueOf_withBase r s _ ha, valueOf_withBase r s _ hb, addressOf_withBase r s _ hc, map_bind, map_pure]
  rfl

theorem jump2_withBase (p : Int → Bool) {a b : Param} (ha : a.mode ≠ .relative) (hb : b.mode ≠ .relative) :
    jump2 p a b (s.withBase r) = State.withBase r <$> jump2 p a b s := by
  simp only [jump2, valueOf_withBase r s _ ha, valueOf_withBase r s _ hb, map_bind, map_pure, apply_ite (State.withBase r)]
  rfl

theorem inputEffect_withBase {a : Param} (ha : a.mode ≠ .relative) :
    inputEffect a (s.withBase r) = State.withBase r <$> inputEffect a s := by
  simp only [inputEffect, addressOf_withBase r s _ ha, map_bind]
  congr 1; funext d
  obtain ⟨_, _, _, _, _, _ | ⟨v, rest⟩, _, _⟩ := s <;> rfl

theorem outputEffect_withBase {a : Param} (ha : a.mode ≠ .relative) :
    outputEffect a (s.withBase r) = State.withBase r <$> outputEffect a s := by
  simp only [outputEffect, valueOf_withBase r s _ ha, map_bind, map_pure]
  rfl

/-- Only the Relative mode reads the base: every other effect, ARB's aside, is the same under any base and keeps it. -/
theorem effectOf_withBase {i : Instr} (hp : ∀ p ∈ i.params, p.mode ≠ .relative) (hi : ∀ a, i ≠ .arb a) :
    effectOf i (s.withBase r) = State.withBase r <$> effectOf i s := by
  cases i with
  | add a b c | mul a b c | lt a b c | eq a b c =>
    exact alu3_withBase r s _ (hp a (by simp [Instr.params])) (hp b (by simp [Instr.params])) (hp c (by simp [Instr.params]))
  | inp a => exact inputEffect_withBase r s (hp a (by simp [Instr.params]))
  | out a => exact outputEffect_withBase r s (hp a (by simp [Instr.params]))
  | jt a b | jf a b => exact jump2_withBase r s _ (hp a (by simp [Instr.params])) (hp b (by simp [Instr.params]))
  | arb a => exact absurd rfl (hi a)
  | hlt => rfl

/-- The fault record does not name the base, so a fault too is the same under any. -/
theorem exec_withBase {i : Instr} (hp : ∀ p ∈ i.params, p.mode ≠ .relative) (hi : ∀ a, i ≠ .arb a) :
    ∃ t, exec i s = .next t ∧ exec i (s.withBase r) = .next (t.withBase r) := by
  rw [exec_eq_commit, exec_eq_commit, effectOf_withBase r s hp hi]
  cases effectOf i s with
  | ok t => exact ⟨t, rfl, rfl⟩
  | error f => exact ⟨s.raise f, rfl, rfl⟩

theorem readOutput_withBase :
    (s.withBase r).readOutput = s.readOutput.map (Prod.map id (State.withBase r)) := by
  simp only [State.readOutput, apply_ite (Except.map _)]
  obtain ⟨_, _, _, _, _, _, _ | ⟨v, rest⟩, _⟩ := s <;> rfl

theorem writeInput_withBase (v : Int) : (s.withBase r).writeInput v = (s.writeInput v).map (State.withBase r) := by
  simp only [State.writeInput, apply_ite (Except.map (State.withBase r))]
  rfl

theorem writeMem_withBase (a v : Int) : (s.withBase r).writeMem a v = (s.writeMem a v).map (State.withBase r) := by
  simp only [State.writeMem, apply_ite (Except.map (State.withBase r))]
  rfl

theorem clone_withBase :
    (s.withBase r).clone = s.clone.map (Prod.map (State.withBase r) (State.withBase r)) := by
  simp only [State.clone, apply_ite (Except.map _)]
  rfl

end

/-- Settles O44: the writers by the inversion lemmas of the step and of the host's calls, the readers by commuting each
operation with a change of the base. -/
theorem relativeBaseIsPrivateToArbAndRelativeMode : Obligations.RelativeBaseIsPrivateToArbAndRelativeMode := by
  refine ⟨fun _ _ => fetch_arb_of_step_rb_ne, fun _ s r => exec_withBase r s, fun _ _ => fetchInstr_congr rfl rfl rfl,
    ?_, fun _ _ => exec_arb_immediate, fun _ _ _ _ => stateAfter_rb, ?_, ?_⟩
  · intro c program s h
    obtain ⟨-, -, rfl⟩ := new_ok.1 h
    rfl
  · exact fun s r a => ⟨rfl, rfl, readOutput_withBase r s⟩
  · exact fun s r a v => ⟨writeInput_withBase r s v, writeMem_withBase r s a v, clone_withBase r s⟩

end Sys2Proof.Machine
end

section
/-! PROOFS. The run (40_execution_cycle.md R108): how it ends, what a larger bound adds, and a core that runs forever. -/

namespace Sys2Proof.Machine

/-! ### How a run ends -/

/-- No step leads back to Ready (R28). -/
theorem step_status_ne_ready {s t : State} (h : step s = .next t) : t.status ≠ .ready := by
  obtain hr | ⟨rfl, -⟩ | ⟨rfl, -⟩ | ⟨f, rfl, -⟩ := step_status h
  · rw [hr]; decide
  all_goals exact Status.noConfusion

theorem run_ended_status_ne_running {n : Nat} {s t : State} (h : run n s = .ended t) : t.status ≠ .running :=
  run_induct (P := fun _ u => u.status ≠ .running) (fun _ h0 => h0) (fun _ _ _ _ ih => ih) n s t h

theorem run_ended_status_ne_ready {n : Nat} {s t : State} (h : run n s = .ended t) (hs : s.status ≠ .ready) :
    t.status ≠ .ready :=
  run_induct (P := fun s u => s.status ≠ .ready → u.status ≠ .ready) (fun _ _ h0 => h0)
    (fun _ _ _ hst ih _ => ih (step_status_ne_ready hst)) n s t h hs

/-- The three ends of a run that started (R236). -/
theorem run_ended_status {n : Nat} {s t : State} (h : run n s = .ended t) (hs : s.status = .running) :
    t.status = .suspended ∨ t.status = .terminated ∨ t.status = .faulted := by
  have hrun := run_ended_status_ne_running h
  have hready := run_ended_status_ne_ready h (by rw [hs]; decide)
  cases ht : t.status with
  | ready => exact absurd ht hready
  | running => exact absurd ht hrun
  | suspended => exact .inl rfl
  | terminated => exact .inr (.inl rfl)
  | faulted => exact .inr (.inr rfl)

/-! ### The bound -/

theorem run_outOfFuel_status {n : Nat} {s t : State} (h : run n s = .outOfFuel t) : t.status = .running := by
  induction n generalizing s with
  | zero =>
    rw [run_zero] at h
    split at h
    · next hs => cases h; exact hs
    · cases h
  | succ n ih =>
    by_cases hs : s.status = .running
    · obtain ⟨u, hu⟩ := step_is_next hs
      exact ih (run_step hu ▸ h)
    · rw [run_stop hs] at h; cases h

/-- A larger bound does not change how a run ends. -/
theorem run_add_of_ended {n : Nat} {s t : State} (k : Nat) (h : run n s = .ended t) : run (n + k) s = .ended t := by
  induction n generalizing s with
  | zero =>
    rw [run_zero] at h
    split at h
    · cases h
    · next hs => rw [run_stop hs]; exact h
  | succ n ih =>
    by_cases hs : s.status = .running
    · obtain ⟨u, hu⟩ := step_is_next hs
      rw [Nat.add_right_comm, run_step hu]
      exact ih (run_step hu ▸ h)
    · rw [run_stop hs] at h ⊢; exact h

/-! ### A run that does not end -/

/-- A core whose step changes nothing uses up every bound. -/
theorem run_of_step_self {s : State} (h : step s = .next s) (n : Nat) : run n s = .outOfFuel s := by
  induction n with
  | zero => rw [run_zero, if_pos (step_next.1 h).1]
  | succ n ih => rw [run_step h, ih]

/-- A Running core that stands before `JT #1, #0` at address 0, a jump to itself. -/
def State.spinning : State := { State.reset with mem := [(0, 1105), (1, 1)], status := .running }

theorem step_spinning : step State.spinning = .next State.spinning := rfl

theorem spinning_inv : State.spinning.Inv := by decide

/-- Settles O49: by induction on the bound, every step of a Running core being a next state; the run without an end is the
jump to itself. -/
theorem runRepeatsTheStep : Obligations.RunRepeatsTheStep := by
  refine ⟨fun _ _ => run_stop, ?_, fun _ _ _ => run_outOfFuel_status,
    fun _ _ _ h => ⟨run_ended_status_ne_running h, run_ended_status h⟩, fun _ k _ _ => run_add_of_ended k,
    State.spinning, spinning_inv, run_of_step_self step_spinning⟩
  intro n s hs
  obtain ⟨t, ht⟩ := step_is_next hs
  exact ⟨t, ht, run_step ht⟩

end Sys2Proof.Machine
end

section
/-! PROOFS. The input queue (42_io.md R141): the host's `write_input` appends to it, only a completed IN takes from it, one
word and the oldest. -/

namespace Sys2Proof.Machine

/-- An effect keeps the input queue, unless it is that of an IN that completes. -/
theorem effectOf_inq {i : Instr} {s t : State} (h : effectOf i s = .ok t) :
    t.inq = s.inq
    ∨ ∃ a d v, i = .inp a ∧ addressOf s 1 a = .ok d ∧ s.inq = v :: t.inq ∧ t.mem = s.mem.write d v
        ∧ t.status = s.status := by
  cases i with
  | add a b c | mul a b c | lt a b c | eq a b c => obtain ⟨x, y, d, r, -, -, -, -, rfl⟩ := alu3_ok.1 h; exact .inl rfl
  | inp a =>
    obtain ⟨d, hd, ⟨-, rfl⟩ | ⟨v, rest, hq, rfl⟩⟩ := inputEffect_ok.1 h
    · exact .inl rfl
    · exact .inr ⟨a, d, v, rfl, hd, hq, rfl, rfl⟩
  | out a => obtain ⟨x, -, rfl⟩ := outputEffect_ok.1 h; exact .inl rfl
  | jt a b | jf a b => obtain ⟨x, y, -, -, rfl⟩ := jump2_ok.1 h; left; split <;> rfl
  | arb a => obtain ⟨y, -, -, rfl⟩ := adjustBase_ok.1 h; exact .inl rfl
  | hlt => cases h; exact .inl rfl

/-- A step keeps the input queue or is a completed IN; the entry into a fault keeps it. -/
theorem step_inq {s t : State} (h : step s = .next t) :
    t.inq = s.inq
    ∨ ∃ a d v, fetchInstr s = .ok (.inp a) ∧ addressOf s 1 a = .ok d ∧ s.inq = v :: t.inq ∧ t.mem = s.mem.write d v
        ∧ t.status = .running := by
  obtain ⟨hr, ⟨i, hf, he⟩ | ⟨f, -, rfl⟩⟩ := step_next.1 h
  · obtain ht | ⟨f, -, rfl⟩ := exec_next.1 he
    · obtain hq | ⟨a, d, v, rfl, hd, hq, hm, hst⟩ := effectOf_inq ht
      · exact .inl hq
      · exact .inr ⟨a, d, v, hf, hd, hq, hm, hst.trans hr⟩
    · exact .inl (State.raise_inq s f)
  · exact .inl (State.raise_inq s f)

/-- A step that suspends takes nothing: one that takes a word leaves the core Running. -/
theorem step_inq_of_suspended {s t : State} (h : step s = .next t) (hs : t.status = .suspended) : t.inq = s.inq := by
  obtain hq | ⟨a, d, v, -, -, -, -, hr⟩ := step_inq h
  · exact hq
  · rw [hs] at hr; cases hr

/-- IN completes when its destination resolves and a word waits. -/
theorem step_inp_completes {s : State} {a : Param} {d : Nat} {v : Int} {rest : List Int} (hr : s.status = .running)
    (hf : fetchInstr s = .ok (.inp a)) (hd : addressOf s 1 a = .ok d) (hq : s.inq = v :: rest) :
    step s = .next { s with inq := rest, mem := s.mem.write d v, ip := s.ip + 2 } :=
  have he : effectOf (.inp a) s = .ok _ := inputEffect_ok.2 ⟨d, hd, .inr ⟨v, rest, hq, rfl⟩⟩
  step_next.2 ⟨hr, .inl ⟨_, hf, exec_next.2 (.inl he)⟩⟩

/-- Of the host's calls that are no run, `write_input` alone changes the input queue. -/
theorem stateAfter_inq {fuel : Nat} {k : HostCall} {s t : State} (hx : k ≠ .execute) (hr : k ≠ .resume)
    (hw : ∀ v, k ≠ .writeInput v) (h : k.stateAfter fuel s = some t) : t.inq = s.inq := by
  obtain rfl | ⟨v, hk, -⟩ | ⟨o, -, hk⟩ | ⟨a, v, -, hk⟩ := stateAfter_simple hx hr h
  · rfl
  · exact absurd hk (hw v)
  · obtain ⟨-, -, rfl⟩ := readOutput_ok.1 hk; rfl
  · obtain ⟨-, -, -, rfl⟩ := writeMem_ok.1 hk; rfl

/-- Settles O45: the host's calls by their inversion lemmas, the step by that of the effect, of which only IN's touches the
input queue. -/
theorem inputIsConsumedOnceInOrder : Obligations.InputIsConsumedOnceInOrder := by
  refine ⟨?_, fun _ _ => step_inq, fun _ _ => step_inq_of_suspended, fun _ _ _ _ _ => step_inp_completes,
    fun _ _ _ _ => stateAfter_inq⟩
  intro s t v h
  obtain ⟨-, -, rfl⟩ := writeInput_ok.1 h
  rfl

end Sys2Proof.Machine
end

section
/-! PROOFS. Run control (60_exceptions.md R230, R231): from which status `execute` and `resume` start a run, and that every
other call of the host leaves the status, the registers and the fault record as they are. -/

namespace Sys2Proof.Machine

section
variable {n : Nat} {s t : State} {k : HostCall}

/-! ### execute -/

theorem execute_of_ready (h : s.status = .ready) :
    s.execute n = returnFrom (run n { s with status := .running }) := by
  simp only [State.execute, h]

theorem execute_of_running (h : s.status = .running) : s.execute n = .rejected .running := by
  simp only [State.execute, h]

theorem execute_of_started (h : s.status = .suspended ∨ s.status = .terminated ∨ s.status = .faulted) :
    s.execute n = .returned s (result s) := by
  obtain h | h | h := h <;> simp only [State.execute, h]

/-- A run of a Ready core that does not end returns nothing to the host. -/
theorem execute_of_run_outOfFuel (hs : s.status = .ready) (h : run n { s with status := .running } = .outOfFuel t) :
    s.execute n = .outOfFuel t := by
  rw [execute_of_ready hs, h, returnFrom]

/-! ### resume -/

theorem resume_of_suspended (h : s.status = .suspended) :
    s.resume n = returnFrom (run n { s with status := .running }) := by
  simp only [State.resume, h]

theorem resume_of_running (h : s.status = .running) : s.resume n = .rejected .running := by
  simp only [State.resume, h]

theorem resume_of_not_begun_or_stopped (h : s.status = .ready ∨ s.status = .terminated ∨ s.status = .faulted) :
    s.resume n = .returned s (result s) := by
  obtain h | h | h := h <;> simp only [State.resume, h]

theorem resume_of_run_ended (hs : s.status = .suspended) (h : run n { s with status := .running } = .ended t) :
    s.resume n = .returned t (result t) := by
  rw [resume_of_suspended hs, h, returnFrom]

/-! ### What a call that starts no run keeps -/

/-- The status, `ip`, the base and the fault record of two states are the same. -/
def State.SameControl (s t : State) : Prop :=
  t.status = s.status ∧ t.ip = s.ip ∧ t.rb = s.rb ∧ t.fault = s.fault

theorem State.SameControl.refl (s : State) : s.SameControl s := ⟨rfl, rfl, rfl, rfl⟩

/-- The host's operations on queues and memory touch no control component. -/
theorem stateAfter_sameControl (hx : k ≠ .execute) (hr : k ≠ .resume) (h : k.stateAfter n s = some t) :
    s.SameControl t := by
  obtain rfl | ⟨v, -, hk⟩ | ⟨o, -, hk⟩ | ⟨a, v, -, hk⟩ := stateAfter_simple hx hr h
  · exact .refl t
  · obtain ⟨-, -, rfl⟩ := writeInput_ok.1 hk; exact .refl s
  · obtain ⟨-, -, rfl⟩ := readOutput_ok.1 hk; exact .refl s
  · obtain ⟨-, -, -, rfl⟩ := writeMem_ok.1 hk; exact .refl s

/-- Control changes only where the status table (R234) starts a run: `execute` from Ready, `resume` from Suspended. -/
theorem stateAfter_sameControl_of_no_run (hx : k = .execute → s.status ≠ .ready) (hr : k = .resume → s.status ≠ .suspended)
    (h : k.stateAfter n s = some t) : s.SameControl t := by
  obtain ⟨hx', hr'⟩ | rfl | ⟨⟨hk, hs⟩ | ⟨hk, hs⟩, -⟩ := stateAfter_cases h
  · exact stateAfter_sameControl hx' hr' h
  · exact .refl t
  · exact absurd hs (hx hk)
  · exact absurd hs (hr hk)

/-- Terminated and Faulted are in neither place of the status table from which a call starts a run. -/
theorem stateAfter_sameControl_of_stopped (hs : s.status = .terminated ∨ s.status = .faulted)
    (h : k.stateAfter n s = some t) : s.SameControl t := by
  refine stateAfter_sameControl_of_no_run (fun _ hready => ?_) (fun _ hsusp => ?_) h
  · rw [hready] at hs; simp at hs
  · rw [hsusp] at hs; simp at hs

end

/-- Settles O51, status by status. -/
theorem executeStartsARunFromReady : Obligations.ExecuteStartsARunFromReady := by
  refine fun n s => ⟨fun hs t h => ?_, fun hs t => execute_of_run_outOfFuel hs, execute_of_started, fun hs => ?_⟩
  · rw [execute_of_ready hs, h, returnFrom]
  · rw [execute_of_running hs, CallOutcome.stateAfter]

/-- Settles O52, status by status. -/
theorem resumeContinuesASuspendedRun : Obligations.ResumeContinuesASuspendedRun := by
  refine fun n s => ⟨fun hs t => resume_of_run_ended hs, fun hs t h => ?_, resume_of_not_begun_or_stopped, fun hs => ?_⟩
  · rw [resume_of_suspended hs, h, returnFrom]
  · rw [resume_of_running hs, CallOutcome.stateAfter]

end Sys2Proof.Machine
end

section
/-! PROOFS. The ends of a run (60_exceptions.md R236) and the wait state (R255). -/

namespace Sys2Proof.Machine

section
variable {n : Nat} {s t : State}

/-! ### The ends of a run -/

/-- A run ends or uses up its bound: its other two outcomes need a step that stops, which no Running core takes. -/
theorem run_ended_or_outOfFuel (n : Nat) (s : State) : (∃ t, run n s = .ended t) ∨ ∃ t, run n s = .outOfFuel t := by
  induction n generalizing s with
  | zero =>
    rw [run_zero]
    split
    · exact .inr ⟨s, rfl⟩
    · exact .inl ⟨s, rfl⟩
  | succ n ih =>
    by_cases hs : s.status = .running
    · obtain ⟨t, ht⟩ := step_is_next hs
      rw [run_step ht]
      exact ih t
    · exact .inl ⟨s, run_stop hs⟩

theorem step_ne_next_of_stopped (hs : s.status = .terminated ∨ s.status = .faulted) (u : State) : step s ≠ .next u := by
  intro h
  have hr := (step_next.1 h).1
  rw [hr] at hs
  simp at hs

/-! ### The wait state -/

/-- A step that suspends is of IN on an empty queue, with everything but the status as it was. -/
theorem step_suspends (h : step s = .next t) (ht : t.status = .suspended) :
    s.inq = [] ∧ t = { s with status := .suspended } ∧ ∃ a, fetchInstr s = .ok (.inp a) := by
  obtain hr | ⟨hu, hq, a, -, hf, -⟩ | ⟨rfl, -⟩ | ⟨f, rfl, -⟩ := step_status h
  · rw [hr] at ht; cases ht
  · exact ⟨hq, hu, a, hf⟩
  all_goals cases ht

/-- IN suspends when its destination resolves and no word waits. -/
theorem step_inp_suspends {a : Param} {d : Nat} (hr : s.status = .running) (hf : fetchInstr s = .ok (.inp a))
    (hd : addressOf s 1 a = .ok d) (hq : s.inq = []) : step s = .next { s with status := .suspended } :=
  have he : effectOf (.inp a) s = .ok _ := inputEffect_ok.2 ⟨d, hd, .inl ⟨hq, rfl⟩⟩
  step_next.2 ⟨hr, .inl ⟨_, hf, exec_next.2 (.inl he)⟩⟩

/-- A core whose first step after `resume` leads back to it comes back from `resume` as it was. -/
theorem resume_of_step_suspends_again (hs : s.status = .suspended)
    (h : step { s with status := .running } = .next s) : s.resume (n + 1) = .returned s (result s) := by
  have hstop : s.status ≠ .running := by rw [hs]; decide
  exact resume_of_run_ended hs ((run_step h).trans (run_stop hstop))

/-- Setting the status twice, the second time to what it was, changes nothing. -/
theorem restore_status {x y : Status} (h : s.status = x) :
    { ({ s with status := y } : State) with status := x } = s := by
  subst h; rfl

end

/-- Settles O50: a run that started ends in one of its three ways or uses up its bound, and a stopped core starts none. -/
theorem runEndsSuspendedTerminatedOrFaulted : Obligations.RunEndsSuspendedTerminatedOrFaulted := by
  refine ⟨fun n s hs => ?_, fun _ _ => resume_of_suspended, fun n k s t hs h => ?_, fun _ _ _ => execute_of_run_outOfFuel⟩
  · obtain ⟨t, ht⟩ | ⟨t, ht⟩ := run_ended_or_outOfFuel n s
    · exact .inl ⟨t, ht, run_ended_status ht hs⟩
    · exact .inr ⟨t, ht, run_outOfFuel_status ht⟩
  · obtain ⟨hst, hip, -, -⟩ := stateAfter_sameControl_of_stopped hs h
    exact ⟨hst, hip, step_ne_next_of_stopped (hst ▸ hs)⟩

/-- Settles O54: entry by the inversion of the step; exit by the frame of the host's calls; a resume with nothing to read
takes the one step that suspends again. -/
theorem suspendedWaitsForResume : Obligations.SuspendedWaitsForResume := by
  refine ⟨fun _ _ => step_suspends, fun n k s t hs hk h => ?_, fun n s a d hs hq hf hd => ?_, fun n s t h ht => ?_,
    fun n k s t hs h => (stateAfter_sameControl_of_stopped (.inl hs) h).1.trans hs⟩
  · obtain ⟨hst, hrest⟩ := stateAfter_sameControl_of_no_run (fun _ => by rw [hs]; decide) (fun hr => absurd hr hk) h
    exact ⟨hst.trans hs, hrest⟩
  · have hf' : fetchInstr { s with status := .running } = .ok (.inp a) := (fetchInstr_congr rfl rfl rfl).trans hf
    have hstep := step_inp_suspends rfl hf' hd hq
    exact resume_of_step_suspends_again hs (hstep.trans (congrArg _ (restore_status hs)))
  · have hr := (step_next.1 h).1
    obtain ⟨-, rfl, -⟩ := step_suspends h ht
    refine resume_of_step_suspends_again rfl ?_
    rw [restore_status hr]
    exact h

end Sys2Proof.Machine
end

section
/-! PROOFS. The invariant of the machine (10_state.md, 60_exceptions.md section 1): it holds of every launch state, and every
update a step or a host call makes keeps it. -/

namespace Sys2Proof.Machine

section
variable {s t : State}

/-! ### Updates that keep the invariant -/

theorem State.Inv.fault_eq_none (h : s.Inv) (hs : s.status ≠ .faulted) : s.fault = none := by
  obtain ⟨-, -, -, -, -, -, -, hiff, -, -⟩ := h
  exact Option.not_isSome_iff_eq_none.1 (mt hiff.1 hs)

theorem State.Inv.store {d : Nat} {v : Int} (h : s.Inv) (hd : d < s.cfg.memSize) (hv : inWord s.cfg.wordBits v) :
    (s.store d v).Inv := by
  obtain ⟨hc, hwf, hm, hrest⟩ := h
  exact ⟨hc, Memory.wf_write d v hwf, Memory.holdsWords_write hm hd hv, hrest⟩

theorem State.Inv.withInq {q : List Int} (h : s.Inv) (hq : ∀ v ∈ q, inWord s.cfg.wordBits v) :
    ({ s with inq := q } : State).Inv := by
  obtain ⟨hc, hwf, hm, hip, hrb, -, hrest⟩ := h
  exact ⟨hc, hwf, hm, hip, hrb, hq, hrest⟩

/-- A Ready core has put nothing out, so there the new queue must be empty. -/
theorem State.Inv.withOutq {q : List Int} (h : s.Inv) (hq : ∀ v ∈ q, inWord s.cfg.wordBits v)
    (hready : s.status = .ready → q = []) : ({ s with outq := q } : State).Inv := by
  obtain ⟨hc, hwf, hm, hip, hrb, hin, -, hiff, hrec, h0⟩ := h
  exact ⟨hc, hwf, hm, hip, hrb, hin, hq, hiff, hrec, fun hs => ⟨(h0 hs).1, (h0 hs).2.1, hready hs⟩⟩

/-- The registers of a Running core may hold any words: it is not Ready, and no record names its `ip`. -/
theorem State.Inv.withRegisters {a b : Int} (h : s.Inv) (hs : s.status = .running) (ha : inWord s.cfg.wordBits a)
    (hb : inWord s.cfg.wordBits b) : ({ s with ip := a, rb := b } : State).Inv := by
  have hnone := h.fault_eq_none (by rw [hs]; decide)
  obtain ⟨hc, hwf, hm, -, -, hin, hout, hiff, -, -⟩ := h
  exact ⟨hc, hwf, hm, ha, hb, hin, hout, hiff, by simp [hnone], by simp [hs]⟩

theorem State.Inv.withIp {a : Int} (h : s.Inv) (hs : s.status = .running) (ha : inWord s.cfg.wordBits a) :
    ({ s with ip := a } : State).Inv := by
  have hrb : inWord s.cfg.wordBits s.rb := by obtain ⟨-, -, -, -, hrb, -⟩ := h; exact hrb
  exact h.withRegisters hs ha hrb

/-- A core without a fault may take any status but Faulted, which needs a record, and Ready, to which nothing returns. -/
theorem State.Inv.withStatus {x : Status} (h : s.Inv) (hs : s.status ≠ .faulted) (hx : x ≠ .faulted) (hx' : x ≠ .ready) :
    ({ s with status := x } : State).Inv := by
  have hnone := h.fault_eq_none hs
  obtain ⟨hc, hwf, hm, hip, hrb, hin, hout, -, -, -⟩ := h
  exact ⟨hc, hwf, hm, hip, hrb, hin, hout, by simp [hnone, hx], by simp [hnone], fun he => absurd he hx'⟩

/-! ### Faults and the records they leave -/

/-- The faults a step can raise (60_exceptions.md R221): of the fetch itself, or of an instruction word that stands in
memory. -/
def FaultInfo.Possible (s : State) (f : FaultInfo) : Prop :=
  (¬ inRange s.cfg s.ip ∧ f = ⟨.outOfBounds, 0, some s.ip⟩)
  ∨ inRange s.cfg s.ip ∧ (OperandOutside s f ∨ ImmediateDestination f ∨ f = ⟨.arithOverflow, 0, none⟩
      ∨ f = ⟨.illegalOpcode, 0, none⟩ ∨ ∃ i, 1 ≤ i ∧ i ≤ 4 ∧ f = ⟨.illegalMode, i, none⟩)

theorem fetch_fault_possible {f : FaultInfo} (h : fetchInstr s = .error f) : f.Possible s := by
  obtain h | ⟨hr, ⟨i, h1, h3, hi, rfl⟩ | h | h⟩ := fetch_error h
  · exact .inl h
  · exact .inr ⟨hr, .inl ⟨i, _, h1, h3, hi, rfl⟩⟩
  · exact .inr ⟨hr, .inr (.inr (.inr (.inl h)))⟩
  · exact .inr ⟨hr, .inr (.inr (.inr (.inr h)))⟩

theorem effect_fault_possible {i : Instr} {f : FaultInfo} (hr : inRange s.cfg s.ip) (h : effectOf i s = .error f) :
    f.Possible s := by
  obtain h | h | h := effect_error h
  · exact .inr ⟨hr, .inl h⟩
  · exact .inr ⟨hr, .inr (.inl h)⟩
  · exact .inr ⟨hr, .inr (.inr (.inl h))⟩

/-- A step that faults is the entry into a possible fault of it. -/
theorem step_faults (h : step s = .next t) (ht : t.status = .faulted) : ∃ f : FaultInfo, f.Possible s ∧ t = s.raise f := by
  obtain hr | ⟨rfl, -⟩ | ⟨rfl, -⟩ | ⟨f, rfl, hf | ⟨i, hi, hf⟩⟩ := step_status h
  · rw [hr] at ht; cases ht
  · cases ht
  · cases ht
  · exact ⟨f, fetch_fault_possible hf, rfl⟩
  · exact ⟨f, effect_fault_possible (fetch_ok hi).1 hf, rfl⟩

theorem faultWord_of_inRange (h : inRange s.cfg s.ip) : s.faultWord = some (s.mem.read s.ip.toNat) := if_pos h

theorem faultWord_of_not_inRange (h : ¬ inRange s.cfg s.ip) : s.faultWord = none := if_neg h

/-- The record of a possible fault has the shape of its cause. -/
theorem record_wellFormed {f : FaultInfo} (h : s.Inv) (hf : f.Possible s) :
    FaultRecord.wellFormed s.cfg ⟨f.cause, s.ip, s.faultWord, f.param, f.addr⟩ := by
  obtain ⟨-, -, hm, hip, -⟩ := h
  obtain ⟨hr, rfl⟩ | ⟨hr, hf⟩ := hf
  · rw [faultWord_of_not_inRange hr]
    exact ⟨hip, by simpa using hr⟩
  · rw [faultWord_of_inRange hr]
    have hw : ∀ w ∈ some (s.mem.read s.ip.toNat), inWord s.cfg.wordBits w := by
      rintro w ⟨⟩; exact Memory.inWord_read hm _
    refine ⟨hip, hw, ?_⟩
    obtain ⟨k, a, h1, h3, ha, rfl⟩ | ⟨k, hk, rfl⟩ | rfl | rfl | ⟨i, h1, h4, rfl⟩ := hf
    · have hk0 : k ≠ 0 := by omega
      simpa [hk0, h3] using ha
    · simp [hk]
    · simp
    · simp
    · simp [h1, h4]

theorem State.Inv.raise {f : FaultInfo} (h : s.Inv) (hf : f.Possible s) : (s.raise f).Inv := by
  have hrec := record_wellFormed h hf
  obtain ⟨hc, hwf, hm, hip, hrb, hin, hout, -, -, -⟩ := h
  refine ⟨hc, hwf, hm, hip, hrb, hin, hout, by simp, ?_, by simp⟩
  rintro r ⟨⟩
  exact ⟨rfl, hrec⟩

/-! ### What an effect computes is a word -/

theorem valueOf_inWord {i : Nat} {p : Param} {x : Int} (h : s.Inv) (hp : inWord s.cfg.wordBits p.raw)
    (hx : valueOf s i p = .ok x) : inWord s.cfg.wordBits x := by
  obtain ⟨-, rfl⟩ | ⟨a, -, -, rfl⟩ := valueOf_ok.1 hx
  · exact hp
  · obtain ⟨-, -, hm, -⟩ := h
    exact Memory.inWord_read hm _

/-- Both truth values are words. -/
theorem State.Inv.inWord_truth (h : s.Inv) (p : Prop) [Decidable p] : inWord s.cfg.wordBits (if p then 1 else 0) := by
  obtain ⟨⟨-, -, hsize⟩, -⟩ := h
  split
  · exact inWord_one (by omega)
  · exact inWord_zero _

/-- F3: what a function of the ALU stores is a word. -/
theorem alu3_inv {f : Config → Int → Int → Except FaultInfo Int} {a b c : Param} (h : s.Inv) (hs : s.status = .running)
    (hip : inWord s.cfg.wordBits (s.ip + 4)) (hf : ∀ x y r, f s.cfg x y = .ok r → inWord s.cfg.wordBits r)
    (he : alu3 f a b c s = .ok t) : t.Inv := by
  obtain ⟨x, y, d, r, -, -, hd, hr, rfl⟩ := alu3_ok.1 he
  exact (h.store (addressOf_lt hd) (hf x y r hr)).withIp hs hip

/-- F2: the target is a word, and so is the address after the instruction. -/
theorem jump2_inv {p : Int → Bool} {a b : Param} (h : s.Inv) (hs : s.status = .running)
    (hb : inWord s.cfg.wordBits b.raw) (hip : inWord s.cfg.wordBits (s.ip + 3)) (he : jump2 p a b s = .ok t) : t.Inv := by
  obtain ⟨x, y, -, hy, rfl⟩ := jump2_ok.1 he
  split
  · exact h.withIp hs (valueOf_inWord h hb hy)
  · exact h.withIp hs hip

theorem inputEffect_inv {a : Param} (h : s.Inv) (hs : s.status = .running) (hip : inWord s.cfg.wordBits (s.ip + 2))
    (he : inputEffect a s = .ok t) : t.Inv := by
  obtain ⟨d, hd, ⟨-, rfl⟩ | ⟨v, rest, hq, rfl⟩⟩ := inputEffect_ok.1 he
  · exact h.withStatus (by rw [hs]; decide) (by decide) (by decide)
  · have hin : ∀ x ∈ v :: rest, inWord s.cfg.wordBits x := by
      obtain ⟨-, -, -, -, -, hin, -⟩ := h; exact hq ▸ hin
    have hrest : ({ s with inq := rest } : State).Inv := h.withInq fun x hx => hin x (List.mem_cons_of_mem _ hx)
    exact (hrest.store (addressOf_lt hd) (hin v List.mem_cons_self)).withIp hs hip

theorem outputEffect_inv {a : Param} (h : s.Inv) (hs : s.status = .running) (ha : inWord s.cfg.wordBits a.raw)
    (hip : inWord s.cfg.wordBits (s.ip + 2)) (he : outputEffect a s = .ok t) : t.Inv := by
  obtain ⟨x, hx, rfl⟩ := outputEffect_ok.1 he
  have hout : ∀ v ∈ s.outq ++ [x], inWord s.cfg.wordBits v := by
    intro v hv
    obtain hv | hv := List.mem_append.1 hv
    · obtain ⟨-, -, -, -, -, -, hout, -⟩ := h; exact hout v hv
    · rw [List.mem_singleton.1 hv]; exact valueOf_inWord h ha hx
  exact (h.withOutq hout (by simp [hs])).withIp hs hip

theorem adjustBase_inv {a : Param} (h : s.Inv) (hs : s.status = .running) (hip : inWord s.cfg.wordBits (s.ip + 2))
    (he : adjustBase a s = .ok t) : t.Inv := by
  obtain ⟨y, -, hy, rfl⟩ := adjustBase_ok.1 he
  exact h.withRegisters hs hip hy

/-- Every effect keeps the invariant of a Running core, where the raw words of the instruction and the address after it are
words. -/
theorem effectOf_inv {i : Instr} (h : s.Inv) (hs : s.status = .running)
    (hp : ∀ p ∈ i.params, inWord s.cfg.wordBits p.raw) (hip : inWord s.cfg.wordBits (s.ip + i.length))
    (he : effectOf i s = .ok t) : t.Inv := by
  cases i with
  | add a b c | mul a b c =>
    refine alu3_inv h hs hip (fun x y r hr => ?_) he
    obtain ⟨hw, rfl⟩ := checkWord_ok.1 hr
    exact hw
  | lt a b c | eq a b c =>
    refine alu3_inv h hs hip (fun x y r hr => ?_) he
    cases hr
    exact h.inWord_truth _
  | inp a => exact inputEffect_inv h hs hip he
  | out a => exact outputEffect_inv h hs (hp a (by simp [Instr.params])) hip he
  | jt a b | jf a b => exact jump2_inv h hs (hp b (by simp [Instr.params])) hip he
  | arb a => exact adjustBase_inv h hs hip he
  | hlt =>
    cases he
    exact h.withStatus (by rw [hs]; decide) (by decide) (by decide)

theorem effectOf_cfg {i : Instr} (he : effectOf i s = .ok t) : t.cfg = s.cfg := by
  cases i with
  | add a b c | mul a b c | lt a b c | eq a b c => obtain ⟨x, y, d, r, -, -, -, -, rfl⟩ := alu3_ok.1 he; rfl
  | inp a => obtain ⟨d, -, ⟨-, rfl⟩ | ⟨v, rest, -, rfl⟩⟩ := inputEffect_ok.1 he <;> rfl
  | out a => obtain ⟨x, -, rfl⟩ := outputEffect_ok.1 he; rfl
  | jt a b | jf a b => obtain ⟨x, y, -, -, rfl⟩ := jump2_ok.1 he; split <;> rfl
  | arb a => obtain ⟨y, -, -, rfl⟩ := adjustBase_ok.1 he; rfl
  | hlt => cases he; rfl

/-! ### The step -/

/-- The words of a fetched instruction are words, and so is the address after it: R8 leaves room above memory. -/
theorem fetch_words {i : Instr} (h : s.Inv) (hf : fetchInstr s = .ok i) :
    (∀ p ∈ i.params, inWord s.cfg.wordBits p.raw) ∧ inWord s.cfg.wordBits (s.ip + i.length) := by
  obtain ⟨⟨h0, -⟩, -, -, -, hend, hp⟩ := fetch_ok hf
  obtain ⟨⟨-, -, hsize⟩, -, hm, -⟩ := h
  refine ⟨fun p hmem => ?_, ?_⟩
  · obtain ⟨b, hb⟩ := hp p hmem
    exact hb ▸ Memory.inWord_read hm b
  · unfold Instr.length
    constructor <;> push_cast <;> omega

theorem step_inv (h : s.Inv) (hst : step s = .next t) : t.Inv := by
  obtain ⟨hs, ⟨i, hf, he⟩ | ⟨f, hf, rfl⟩⟩ := step_next.1 hst
  · obtain he' | ⟨f, he', rfl⟩ := exec_next.1 he
    · obtain ⟨hp, hip⟩ := fetch_words h hf
      exact effectOf_inv h hs hp hip he'
    · exact h.raise (effect_fault_possible (fetch_ok hf).1 he')
  · exact h.raise (fetch_fault_possible hf)

theorem step_cfg (hst : step s = .next t) : t.cfg = s.cfg := by
  obtain ⟨-, ⟨i, -, he⟩ | ⟨f, -, rfl⟩⟩ := step_next.1 hst
  · obtain he | ⟨f, -, rfl⟩ := exec_next.1 he
    · exact effectOf_cfg he
    · rfl
  · rfl

end

/-- Settles O6: the effect of each instruction is a few updates that keep the invariant, and every fault of the fetch or of
an effect leaves a record of the shape of its cause. -/
theorem stepKeepsInvariant : Obligations.StepKeepsInvariant :=
  fun _ _ h hst => ⟨step_inv h hst, step_cfg hst⟩

section
variable {n : Nat} {s t : State} {k : HostCall}

/-! ### Launch states -/

theorem new_inv {c : Config} {program : List Int} (hc : c.valid) (h : State.new c program = .ok s) :
    s.Inv ∧ s.cfg = c := by
  obtain ⟨hlen, hw, rfl⟩ := new_ok.1 h
  refine ⟨⟨hc, Memory.wf_load program, Memory.holdsWords_load (by simpa using hlen) hw, inWord_zero _, inWord_zero _, ?_⟩, rfl⟩
  simp

theorem writeInput_inv {v : Int} (h : s.Inv) (hw : s.writeInput v = .ok t) : t.Inv ∧ t.cfg = s.cfg := by
  obtain ⟨-, hv, rfl⟩ := writeInput_ok.1 hw
  refine ⟨h.withInq fun x hx => ?_, rfl⟩
  obtain hx | hx := List.mem_append.1 hx
  · obtain ⟨-, -, -, -, -, hin, -⟩ := h; exact hin x hx
  · rw [List.mem_singleton.1 hx]; exact hv

theorem writeMem_inv {a v : Int} (h : s.Inv) (hw : s.writeMem a v = .ok t) : t.Inv ∧ t.cfg = s.cfg := by
  obtain ⟨-, ⟨h0, h1⟩, hv, rfl⟩ := writeMem_ok.1 hw
  exact ⟨h.store (by omega) hv, rfl⟩

theorem readOutput_inv {o : Option Int} (h : s.Inv) (hw : s.readOutput = .ok (o, t)) : t.Inv ∧ t.cfg = s.cfg := by
  obtain ⟨-, -, rfl⟩ := readOutput_ok.1 hw
  have hI := h
  obtain ⟨-, -, -, -, -, -, hout, -, -, h0⟩ := hI
  refine ⟨h.withOutq (fun v hv => hout v (List.mem_of_mem_tail hv)) (fun hs => ?_), rfl⟩
  rw [(h0 hs).2.2, List.tail_nil]

theorem seed_inv {x : Seed} (h : s.Inv) (hx : s.seed x = .ok t) : t.Inv ∧ t.cfg = s.cfg := by
  cases x with
  | input v => exact writeInput_inv h hx
  | mem a v => exact writeMem_inv h hx

theorem seeds_inv {xs : List Seed} (h : s.Inv) (hx : s.seeds xs = .ok t) : t.Inv ∧ t.cfg = s.cfg := by
  induction xs generalizing s with
  | nil => cases hx; exact ⟨h, rfl⟩
  | cons x xs ih =>
    unfold State.seeds at hx
    split at hx
    · next u hu =>
      obtain ⟨hI, hc⟩ := seed_inv h hu
      obtain ⟨hI', hc'⟩ := ih hI hx
      exact ⟨hI', hc'.trans hc⟩
    · cases hx

/-! ### Runs and host calls -/

/-- A start or a continuation of a run: the core was Ready or Suspended, so it has no fault record. -/
theorem State.Inv.start (h : s.Inv) (hs : s.status = .ready ∨ s.status = .suspended) :
    ({ s with status := .running } : State).Inv := by
  refine h.withStatus (fun hf => ?_) (by decide) (by decide)
  rw [hf] at hs; simp at hs

theorem run_inv (h : s.Inv) (hr : run n s = .ended t) : t.Inv ∧ t.cfg = s.cfg := by
  refine run_induct (P := fun s u => s.Inv → u.Inv ∧ u.cfg = s.cfg) (fun s _ h => ⟨h, rfl⟩) (fun s t u hst ih h => ?_)
    n s t hr h
  obtain ⟨hI, hc⟩ := ih (step_inv h hst)
  exact ⟨hI, hc.trans (step_cfg hst)⟩

theorem stateAfter_inv (h : s.Inv) (hk : k.stateAfter n s = some t) : t.Inv ∧ t.cfg = s.cfg := by
  obtain ⟨hx, hr⟩ | rfl | ⟨hks, hrun⟩ := stateAfter_cases hk
  · obtain rfl | ⟨v, -, hw⟩ | ⟨o, -, hw⟩ | ⟨a, v, -, hw⟩ := stateAfter_simple hx hr hk
    · exact ⟨h, rfl⟩
    · exact writeInput_inv h hw
    · exact readOutput_inv h hw
    · exact writeMem_inv h hw
  · exact ⟨h, rfl⟩
  · have hstart := h.start (hks.imp And.right And.right)
    obtain ⟨hI, hcfg⟩ := run_inv hstart hrun
    exact ⟨hI, hcfg⟩

end

/-- Settles O5: the launch state of `new` meets the invariant and every seed keeps it. -/
theorem launchMeetsInvariant : Obligations.LaunchMeetsInvariant := by
  intro c program seeds s hc h
  unfold launch at h
  split at h
  · next t ht =>
    obtain ⟨hI, rfl⟩ := new_inv hc ht
    exact seeds_inv hI h
  · cases h

/-- Settles O7: by the inversion lemmas of the host's calls, and for a run by induction over its steps. -/
theorem hostCallsKeepInvariant : Obligations.HostCallsKeepInvariant := fun _ _ _ _ => stateAfter_inv

/-- Settles O8, by induction over how the state is reached. -/
theorem reachableStatesMeetInvariant : Obligations.ReachableStatesMeetInvariant := by
  intro c s hc h
  induction h with
  | launched program s hn => exact new_inv hc hn
  | started s _ hs ih => exact ⟨ih.1.start hs, ih.2⟩
  | stepped s t _ hst ih => exact ⟨step_inv ih.1 hst, (step_cfg hst).trans ih.2⟩
  | called fuel k s t _ hk ih =>
    obtain ⟨hI, hcfg⟩ := stateAfter_inv ih.1 hk
    exact ⟨hI, hcfg.trans ih.2⟩

end Sys2Proof.Machine
end

section
/-! PROOFS. Encoding (30_encoding.md): the decoder and the encoder undo each other, the formula of R78, and the length of an
instruction. -/

namespace Sys2Proof

section
variable {x : ExtraModeDigits} {w : Int} {ws rest : List Int} {i : Instr}

theorem decode_of_nonneg (h : 0 ≤ w) : decode x (w :: ws) = decodeOpcode x w.toNat ws := by
  rw [decode_cons, if_neg (by omega)]

theorem decode_natCast (n : Nat) : decode x ((n : Int) :: ws) = decodeOpcode x n ws := decode_of_nonneg (by omega)

/-! ### Round trips -/

theorem decode_encode (x : ExtraModeDigits) (i : Instr) (rest : List Int) : decode x (encode i ++ rest) = .ok (i, rest) := by
  obtain ⟨hop, hmodes, hextra⟩ := encode_word i
  exact (decode_natCast i.word).trans (decodeOpcode_ok.2 ⟨hop, rfl, hmodes, fun _ => hextra⟩)

theorem encode_of_decode (h : decode x (w :: ws) = .ok (i, rest)) (hw : w.toNat / 10 ^ (i.arity + 2) = 0) :
    encode i ++ rest = w :: ws := by
  obtain ⟨h0, hd⟩ := decode_cons_ok h
  obtain ⟨hop, rfl, hmodes, -⟩ := decodeOpcode_ok.1 hd
  have hword : (i.word : Int) = w := by rw [← word_of_digits hop hmodes hw]; omega
  rw [encode, hword, List.cons_append]

/-! ### Instructions as strings of bits (log 9) -/

theorem arity_le_three (i : Instr) : i.arity ≤ 3 := by cases i <;> simp [Instr.arity, Instr.params]

theorem length_le_maxLength (i : Instr) : i.length ≤ maxLength := by
  have := arity_le_three i
  unfold Instr.length maxLength
  omega

/-- An instruction word has at most five digits. -/
theorem word_lt (i : Instr) : i.word < 10 ^ 5 := by
  obtain ⟨-, -, h⟩ := encode_word i
  have hpow : 10 ^ (i.arity + 2) ≤ 10 ^ 5 := Nat.pow_le_pow_right (by decide) (by have := arity_le_three i; omega)
  have hlt := (Nat.div_eq_zero_iff_lt (by positivity)).1 h
  omega

/-- The words of an instruction of words are words, where a word has bits enough for five decimal digits. -/
theorem inWord_of_mem_encode {bits : Nat} (hbits : 10 ^ 5 ≤ wordHalf bits) (h : i.wellFormed bits = true) :
    ∀ v ∈ encode i, inWord bits v := by
  intro v hv
  obtain rfl | hv := List.mem_cons.1 hv
  · have := word_lt i
    constructor <;> omega
  · obtain ⟨p, hp, rfl⟩ := List.mem_map.1 hv
    exact of_decide_eq_true (List.all_eq_true.1 h p hp)

/-- The words of an instruction's own bits are its encoding, with words of padding after it. -/
theorem tableWords_encode {bits : Nat} (hb : 1 ≤ bits) (h : ∀ v ∈ encode i, inWord bits v) :
    ∃ pad, tableWords bits (bits * i.length) (bitsOfWords bits (encode i)) = encode i ++ pad := by
  have hlt := bitsOfWords_lt bits (encode i)
  have hmax : maxLength = (encode i).length + (maxLength - i.length) := by
    have := length_le_maxLength i
    rw [encode_length]; omega
  rw [encode_length] at hlt
  rw [tableWords, Nat.mod_eq_of_lt hlt, hmax, wordsOfBits_bitsOfWords hb _ h]
  exact ⟨_, rfl⟩

/-! ### The length -/

/-- The table of formats (R74), as the opcode of an instruction and its length. -/
theorem opcode_length (i : Instr) :
    i.opcode = 99 ∧ i.length = 1
    ∨ (i.opcode = 3 ∨ i.opcode = 4 ∨ i.opcode = 9) ∧ i.length = 2
    ∨ (i.opcode = 5 ∨ i.opcode = 6) ∧ i.length = 3
    ∨ (i.opcode = 1 ∨ i.opcode = 2 ∨ i.opcode = 7 ∨ i.opcode = 8) ∧ i.length = 4 := by
  cases i <;> simp [Instr.opcode, Instr.length, Instr.arity, Instr.params]

end

/-- Settles O9: the instruction word has the opcode and the digits the decoder looks for, and none above them. -/
theorem decodeOfEncode : Obligations.DecodeOfEncode := decode_encode

/-- Settles O10: a word is determined by its opcode and its digits where there are none above them. -/
theorem encodeOfDecode : Obligations.EncodeOfDecode := fun _ _ _ _ _ => encode_of_decode

/-- Settles O11: the bits give back the words, and the decoder passes over the padding after them. -/
theorem tableWordOfEncode : Obligations.TableWordOfEncode := by
  intro i h
  obtain ⟨pad, hpad⟩ := tableWords_encode (bits := 64) (by decide) (inWord_of_mem_encode (by decide) h)
  have hd := decode_encode Config.standard.extraModeDigits i pad
  rw [← hpad] at hd
  unfold decodeTableWord
  rw [show Config.standard.wordBits = 64 from rfl, hd]

/-- Settles O12, format by format. -/
theorem encodingFormula : Obligations.EncodingFormula := by
  intro a b c
  refine ⟨?_, ?_, ?_, rfl⟩
  · simp only [List.forall_mem_cons, List.not_mem_nil, false_implies, implies_true, and_true]
    refine ⟨?_, ?_, ?_, ?_⟩ <;>
      simp [encode, Instr.word, Instr.params, Instr.opcode, modeDigits, add_assoc]
  · simp only [List.forall_mem_cons, List.not_mem_nil, false_implies, implies_true, and_true]
    refine ⟨?_, ?_⟩ <;> simp [encode, Instr.word, Instr.params, Instr.opcode, modeDigits, add_assoc]
  · simp only [List.forall_mem_cons, List.not_mem_nil, false_implies, implies_true, and_true]
    refine ⟨?_, ?_, ?_⟩ <;> simp [encode, Instr.word, Instr.params, Instr.opcode, modeDigits]

/-- Settles O13: the decoder finds the opcode of the instruction in the word, and the opcode fixes the length. -/
theorem lengthDependsOnOpcodeAlone : Obligations.LengthDependsOnOpcodeAlone := by
  intro x w ws rest i h
  obtain ⟨h0, hd⟩ := decode_cons_ok h
  obtain ⟨hop, hws, -, -⟩ := decodeOpcode_ok.1 hd
  have hw : w % 100 = i.opcode := by omega
  refine ⟨h0, ?_, hws, rfl⟩
  rw [hw]
  exact_mod_cast opcode_length i

/-- Settles O15: each word is decoded by evaluation. -/
theorem sampleWordsDecode : Obligations.SampleWordsDecode := by
  unfold Obligations.SampleWordsDecode; decide

/-- Settles O16: the forms are counted. -/
theorem ninetyNineExecutableForms : Obligations.NinetyNineExecutableForms := by
  unfold Obligations.NinetyNineExecutableForms; decide

end Sys2Proof
end

section
/-! PROOFS. One account of the decoder for every opcode: the arity alone fixes which digits are checked and how many words
are taken (30_encoding.md R74, R76). -/

namespace Sys2Proof

open Reference

/-! ### The numbers of the parameters -/

theorem mem_upTo {n i : Nat} : i ∈ upTo n ↔ 1 ≤ i ∧ i ≤ n := by
  simp only [upTo, List.mem_map, List.mem_range]
  constructor
  · rintro ⟨j, hj, rfl⟩; omega
  · rintro ⟨h1, hn⟩; exact ⟨i - 1, by omega, by omega⟩

theorem find?_upTo_eq_none {n : Nat} {p : Nat → Bool} :
    (upTo n).find? p = none ↔ ∀ i, 1 ≤ i → i ≤ n → p i = false := by
  simp [List.find?_eq_none, mem_upTo]

theorem find?_upTo_eq_some {n i : Nat} {p : Nat → Bool} :
    (upTo n).find? p = some i ↔ 1 ≤ i ∧ i ≤ n ∧ p i = true ∧ ∀ j, 1 ≤ j → j < i → p j = false := by
  rw [upTo, List.find?_map, Option.map_eq_some_iff]
  constructor
  · rintro ⟨k, hk, rfl⟩
    obtain ⟨hp, hmem, hfirst⟩ := List.find?_range_eq_some.1 hk
    refine ⟨by omega, List.mem_range.1 hmem, hp, fun j h1 hj => ?_⟩
    obtain ⟨j, rfl⟩ : ∃ m, j = m + 1 := ⟨j - 1, by omega⟩
    simpa using hfirst j (by omega)
  · rintro ⟨h1, hn, hp, hfirst⟩
    obtain ⟨k, rfl⟩ : ∃ m, i = m + 1 := ⟨i - 1, by omega⟩
    refine ⟨k, List.find?_range_eq_some.2 ⟨hp, List.mem_range.2 (by omega), fun j hj => ?_⟩, rfl⟩
    simp [hfirst (j + 1) (by omega) (by omega)]

/-! ### The decoder by arity -/

/-- The parameter number of the first mode digit that is illegal (R73). -/
def illegalModeAt (n w : Nat) : Option Nat := (upTo n).find? fun i => decide (2 < digit w (i + 1))

/-- The parameters that the digits of a word and the words after it give. -/
def paramsOf (n w : Nat) (ws : List Int) : List Param :=
  List.zipWith (fun i v => ⟨modeOr (digit w (i + 1)), v⟩) (upTo n) ws

/-- The decoder for an opcode of arity `n`, stages S3 and S4 of 40_execution_cycle.md R101: the first illegal mode digit,
then the extra digits, then the first word that is missing. -/
def decodeArity (n : Nat) (mk : List Param → Instr) (x : ExtraModeDigits) (w : Nat) (ws : List Int) :
    Except DecodeError (Instr × List Int) :=
  match illegalModeAt n w with
  | some i => .error (.illegalMode i)
  | none =>
    if x = .fault ∧ w / 10 ^ (n + 2) ≠ 0 then .error (.illegalMode (n + 1))
    else if ws.length < n then .error (.missing (ws.length + 1))
    else .ok (mk (paramsOf n w ws), ws.drop n)

/-- An instruction of one parameter, from a list. -/
def onParams1 (mk : Param → Instr) : List Param → Instr
  | [a] => mk a
  | _ => .hlt

/-- An instruction of two parameters, from a list. -/
def onParams2 (mk : Param → Param → Instr) : List Param → Instr
  | [a, b] => mk a b
  | _ => .hlt

/-- An instruction of three parameters, from a list. -/
def onParams3 (mk : Param → Param → Param → Instr) : List Param → Instr
  | [a, b, c] => mk a b c
  | _ => .hlt

section
variable (x : ExtraModeDigits) (w : Nat) (ws : List Int)

theorem decode0_eq_decodeArity (mk : Instr) : decode0 mk x w ws = decodeArity 0 (fun _ => mk) x w ws := by
  rw [decode0_eq]
  rfl

theorem decode1_eq_decodeArity (mk : Param → Instr) : decode1 mk x w ws = decodeArity 1 (onParams1 mk) x w ws := by
  rw [decode1_eq, decodeArity, illegalModeAt]
  by_cases h1 : 2 < digit w 2
  · simp [upTo, h1]
  · match ws with
    | [] => simp [upTo, h1]
    | a :: r => simp [upTo, h1, paramsOf, onParams1]

theorem decode2_eq_decodeArity (mk : Param → Param → Instr) :
    decode2 mk x w ws = decodeArity 2 (onParams2 mk) x w ws := by
  have hup : upTo 2 = [1, 2] := rfl
  rw [decode2_eq, decodeArity, illegalModeAt, hup]
  by_cases h1 : 2 < digit w 2
  · simp [h1]
  · by_cases h2 : 2 < digit w 3
    · simp [h1, h2]
    · match ws with
      | [] => simp [h1, h2]
      | [_] => simp [h1, h2]
      | a :: b :: r => simp [h1, h2, hup, paramsOf, onParams2]

theorem decode3_eq_decodeArity (mk : Param → Param → Param → Instr) :
    decode3 mk x w ws = decodeArity 3 (onParams3 mk) x w ws := by
  have hup : upTo 3 = [1, 2, 3] := rfl
  rw [decode3_eq, decodeArity, illegalModeAt, hup]
  by_cases h1 : 2 < digit w 2
  · simp [h1]
  · by_cases h2 : 2 < digit w 3
    · simp [h1, h2]
    · by_cases h3 : 2 < digit w 4
      · simp [h1, h2, h3]
      · match ws with
        | [] => simp [h1, h2, h3]
        | [_] => simp [h1, h2, h3]
        | [_, _] => simp [h1, h2, h3]
        | a :: b :: c :: r =>
          have hlen : ¬ r.length + 1 + 1 + 1 < 3 := by omega
          simp [h1, h2, h3, hlen, hup, paramsOf, onParams3]

end

/-- The opcodes with an arity are the rows of the opcode map (R80). -/
theorem arityOf_eq_some {op n : Nat} (h : arityOf op = some n) :
    n = 3 ∧ (op = 1 ∨ op = 2 ∨ op = 7 ∨ op = 8) ∨ n = 2 ∧ (op = 5 ∨ op = 6)
    ∨ n = 1 ∧ (op = 3 ∨ op = 4 ∨ op = 9) ∨ n = 0 ∧ op = 99 := by
  unfold arityOf at h
  split at h
  · next hop => simp at h hop; omega
  · split at h
    · next hop => simp at h hop; omega
    · split at h
      · next hop => simp at h hop; omega
      · split at h
        · next hop => simp at h; omega
        · cases h

theorem arityOf_le {op n : Nat} (h : arityOf op = some n) : n ≤ 3 := by
  have := arityOf_eq_some h
  omega

theorem arityOf_opcode (i : Instr) : arityOf i.opcode = some i.arity := by cases i <;> rfl

/-- The decoder for an opcode of the map depends on the word through its digits alone. -/
theorem decodeOpcode_eq_decodeArity {op n : Nat} (h : arityOf op = some n) :
    ∃ mk, ∀ x w ws, w % 100 = op → decodeOpcode x w ws = decodeArity n mk x w ws := by
  obtain ⟨rfl, hop⟩ | ⟨rfl, hop⟩ | ⟨rfl, hop⟩ | ⟨rfl, rfl⟩ := arityOf_eq_some h
  · obtain rfl | rfl | rfl | rfl := hop <;>
      exact ⟨onParams3 _, fun x w ws hw => by rw [decodeOpcode, hw]; exact decode3_eq_decodeArity x w ws _⟩
  · obtain rfl | rfl := hop <;>
      exact ⟨onParams2 _, fun x w ws hw => by rw [decodeOpcode, hw]; exact decode2_eq_decodeArity x w ws _⟩
  · obtain rfl | rfl | rfl := hop <;>
      exact ⟨onParams1 _, fun x w ws hw => by rw [decodeOpcode, hw]; exact decode1_eq_decodeArity x w ws _⟩
  · exact ⟨fun _ => .hlt, fun x w ws hw => by rw [decodeOpcode, hw]; exact decode0_eq_decodeArity x w ws _⟩

/-- A word that selects no row of the opcode map (R81). -/
theorem decodeOpcode_of_arityOf_none {x : ExtraModeDigits} {w : Nat} {ws : List Int} (h : arityOf (w % 100) = none) :
    decodeOpcode x w ws = .error .illegalOpcode := by
  cases hd : decodeOpcode x w ws with
  | ok r =>
    have hop := (decodeOpcode_ok.1 hd).1
    rw [hop, arityOf_opcode] at h
    cases h
  | error e =>
    rcases decodeOpcode_cases x w ws with ⟨hw, -⟩ | ⟨hw, -⟩ | ⟨hw, -⟩ | ⟨hw, -⟩ | ⟨hw, -⟩ | ⟨hw, -⟩ | ⟨hw, -⟩ | ⟨hw, -⟩
      | ⟨hw, -⟩ | ⟨hw, -⟩ | ⟨-, he⟩
    case inr.inr.inr.inr.inr.inr.inr.inr.inr.inr => rw [← hd, he]
    all_goals rw [hw] at h; cases h

/-! ### The verdicts of the decoder -/

section
variable {n w : Nat} {x : ExtraModeDigits} {ws : List Int}

theorem illegalModeAt_eq_none : illegalModeAt n w = none ↔ ∀ i, 1 ≤ i → i ≤ n → digit w (i + 1) ≤ 2 := by
  simp only [illegalModeAt, find?_upTo_eq_none, decide_eq_false_iff_not, not_lt]

theorem illegalModeAt_eq_some {i : Nat} (h1 : 1 ≤ i) (hn : i ≤ n) (hi : 2 < digit w (i + 1))
    (hfirst : ∀ j, 1 ≤ j → j < i → digit w (j + 1) ≤ 2) : illegalModeAt n w = some i :=
  find?_upTo_eq_some.2 ⟨h1, hn, by simpa using hi, by simpa using hfirst⟩

theorem decode_illegalMode {i : Nat} (h : arityOf (w % 100) = some n) (hi : illegalModeAt n w = some i) :
    decode x ((w : Int) :: ws) = .error (.illegalMode i) := by
  obtain ⟨mk, hmk⟩ := decodeOpcode_eq_decodeArity h
  rw [decode_natCast, hmk x w ws rfl, decodeArity, hi]

theorem decode_extraDigit (h : arityOf (w % 100) = some n) (hm : illegalModeAt n w = none)
    (hx : x = .fault ∧ w / 10 ^ (n + 2) ≠ 0) : decode x ((w : Int) :: ws) = .error (.illegalMode (n + 1)) := by
  obtain ⟨mk, hmk⟩ := decodeOpcode_eq_decodeArity h
  rw [decode_natCast, hmk x w ws rfl, decodeArity, hm]
  exact if_pos hx

theorem decode_missing (h : arityOf (w % 100) = some n) (hm : illegalModeAt n w = none)
    (hx : ¬ (x = .fault ∧ w / 10 ^ (n + 2) ≠ 0)) (hlen : ws.length < n) :
    decode x ((w : Int) :: ws) = .error (.missing (ws.length + 1)) := by
  obtain ⟨mk, hmk⟩ := decodeOpcode_eq_decodeArity h
  rw [decode_natCast, hmk x w ws rfl, decodeArity, hm]
  exact (if_neg hx).trans (if_pos hlen)

theorem decode_succeeds (h : arityOf (w % 100) = some n) (hm : illegalModeAt n w = none)
    (hx : ¬ (x = .fault ∧ w / 10 ^ (n + 2) ≠ 0)) (hlen : n ≤ ws.length) :
    ∃ i rest, decode x ((w : Int) :: ws) = .ok (i, rest) := by
  obtain ⟨mk, hmk⟩ := decodeOpcode_eq_decodeArity h
  rw [decode_natCast, hmk x w ws rfl, decodeArity, hm]
  exact ⟨_, _, (if_neg hx).trans (if_neg (by omega))⟩

theorem decode_illegalOpcode {v : Int} (h : v < 0 ∨ arityOf (v.toNat % 100) = none) :
    decode x (v :: ws) = .error .illegalOpcode := by
  rw [decode_cons]
  split
  · rfl
  · next h0 => exact decodeOpcode_of_arityOf_none (h.resolve_left h0)

/-! ### Digits above the mode digits -/

theorem digit_mod_pow_arity {i : Nat} (hn : i ≤ n) : digit (w % 10 ^ (n + 2)) (i + 1) = digit w (i + 1) :=
  digit_mod (by omega)

theorem illegalModeAt_mod : illegalModeAt n (w % 10 ^ (n + 2)) = illegalModeAt n w := by
  unfold illegalModeAt
  refine List.find?_congr fun i hi => ?_
  rw [digit_mod_pow_arity (mem_upTo.1 hi).2]

theorem paramsOf_mod : paramsOf n (w % 10 ^ (n + 2)) ws = paramsOf n w ws := by
  have hmap : (upTo n).map (fun i => modeOr (digit (w % 10 ^ (n + 2)) (i + 1)))
      = (upTo n).map fun i => modeOr (digit w (i + 1)) :=
    List.map_congr_left fun i hi => by rw [digit_mod_pow_arity (mem_upTo.1 hi).2]
  have hzip : ∀ f : Nat → Mode, List.zipWith (fun i v => (⟨f i, v⟩ : Param)) (upTo n) ws
      = List.zipWith Param.mk ((upTo n).map f) ws := fun f => by rw [List.zipWith_map_left]
  rw [paramsOf, paramsOf, hzip, hzip, hmap]

theorem decodeArity_ignore_mod (mk : List Param → Instr) :
    decodeArity n mk .ignore (w % 10 ^ (n + 2)) ws = decodeArity n mk .ignore w ws := by
  simp only [decodeArity, illegalModeAt_mod, paramsOf_mod, reduceCtorEq, false_and, if_false]

theorem mod_pow_arity_mod_hundred : w % 10 ^ (n + 2) % 100 = w % 100 := by
  rw [show (100 : Nat) = 10 ^ 2 from rfl]
  exact Nat.mod_mod_of_dvd w (Nat.pow_dvd_pow 10 (by omega))

end

/-- Settles O14: the decoder reads the digits below the cut alone, and what it does with those above is one test. -/
theorem extraDigitsFollowParameter : Obligations.ExtraDigitsFollowParameter := by
  intro w n ws h
  obtain ⟨mk, hmk⟩ := decodeOpcode_eq_decodeArity h
  refine ⟨?_, fun h0 => ?_, fun h0 hlegal => decode_extraDigit h (illegalModeAt_eq_none.2 hlegal) ⟨rfl, h0⟩⟩
  · rw [decode_natCast, decode_natCast, hmk _ w ws rfl, hmk _ _ ws mod_pow_arity_mod_hundred, decodeArity_ignore_mod]
  · rw [decode_natCast, decode_natCast, hmk _ w ws rfl, hmk _ w ws rfl]
    simp only [decodeArity, h0, ne_eq, not_true_eq_false, and_false]

/-! ### Listings -/

section
variable {x : ExtraModeDigits} {n : Nat} {w : Int} {ws rest : List Int} {i : Instr}

theorem disassemble_of_decode_ok (h : decode x (w :: ws) = .ok (i, rest)) :
    disassemble x (n + 1) (w :: ws) = .instr i :: disassemble x n rest := by
  rw [disassemble, h]

theorem disassemble_of_decode_error {e : DecodeError} (h : decode x (w :: ws) = .error e) :
    disassemble x (n + 1) (w :: ws) = .data w :: disassemble x n ws := by
  rw [disassemble, h]

/-- No line takes less than one word, so any bound that is as long as the tape gives the same listing. -/
theorem disassemble_bound {n m : Nat} {tape : List Int} (hn : tape.length ≤ n) (hm : tape.length ≤ m) :
    disassemble x n tape = disassemble x m tape := by
  induction n generalizing m tape with
  | zero =>
    obtain rfl := List.length_eq_zero_iff.1 (Nat.le_zero.1 hn)
    cases m <;> rfl
  | succ n ih =>
    cases tape with
    | nil => cases m <;> rfl
    | cons w ws =>
      obtain ⟨m, rfl⟩ : ∃ k, m = k + 1 := ⟨m - 1, by rw [List.length_cons] at hm; omega⟩
      rw [List.length_cons] at hn hm
      cases hd : decode x (w :: ws) with
      | ok r =>
        obtain ⟨i, rest⟩ := r
        have hlen := decode_length hd
        rw [List.length_cons, Instr.length] at hlen
        rw [disassemble_of_decode_ok hd, disassemble_of_decode_ok hd, ih (m := m) (by omega) (by omega)]
      | error e => rw [disassemble_of_decode_error hd, disassemble_of_decode_error hd, ih (m := m) (by omega) (by omega)]

end

/-- Settles O18: a line of a listing follows the decoder's verdict. -/
theorem listingShowsInstructions : Obligations.ListingShowsInstructions := by
  refine ⟨fun x i n rest => disassemble_of_decode_ok (decode_encode x i rest),
    fun x w n rest h => disassemble_of_decode_error (decode_illegalOpcode h), ?_,
    fun x tape n h => disassemble_bound h le_rfl⟩
  rintro x w n rest (h | ⟨i, h⟩)
  · exact disassemble_of_decode_error h
  · exact disassemble_of_decode_error h

end Sys2Proof
end

section
/-! PROOFS. Fetch and decode (40_execution_cycle.md, stages S1 to S4): which instruction a step runs, and which faults the
fetch raises. -/

namespace Sys2Proof.Machine

open Reference (arityOf upTo)

section
variable {s : State} {i : Instr} {ws rest : List Int}

/-! ### The words at `ip` -/

theorem wordsFrom_of_inRange (h : inRange s.cfg s.ip) :
    wordsFrom s s.ip maxLength = s.mem.read s.ip.toNat :: wordsFrom s (s.ip + 1) 3 := if_pos h

theorem wordsFrom_length {a : Int} (h : 0 ≤ a) (k : Nat) :
    (wordsFrom s a k).length = min k (s.cfg.memSize - a).toNat := by
  induction k generalizing a with
  | zero => simp [wordsFrom]
  | succ k ih =>
    unfold wordsFrom
    split
    · next hr =>
      obtain ⟨-, hr⟩ := hr
      rw [List.length_cons, ih (by omega)]
      omega
    · next hr =>
      have : ¬ a < s.cfg.memSize := fun ha => hr ⟨h, ha⟩
      simp only [List.length_nil]
      omega

/-- Words that stand in memory in a row are fetched. -/
theorem wordsFrom_of_stored {l : List Int} {a : Int} {k : Nat} (hk : l.length ≤ k)
    (h : ∀ (j : Nat) (hj : j < l.length), inRange s.cfg (a + j) ∧ s.mem.read (a + j).toNat = l[j]) :
    ∃ rest, wordsFrom s a k = l ++ rest := by
  induction l generalizing a k with
  | nil => exact ⟨_, rfl⟩
  | cons v l ih =>
    obtain ⟨k, rfl⟩ : ∃ m, k = m + 1 := ⟨k - 1, by rw [List.length_cons] at hk; omega⟩
    rw [List.length_cons] at hk
    obtain ⟨hr, hv⟩ := h 0 (by simp)
    obtain ⟨rest, hrest⟩ := ih (a := a + 1) (k := k) (by omega) fun j hj => by
      have := h (j + 1) (by rw [List.length_cons]; omega)
      rwa [Nat.cast_add_one, add_comm (j : Int) 1, ← add_assoc] at this
    rw [Nat.cast_zero, add_zero] at hr hv
    exact ⟨rest, by rw [wordsFrom, if_pos hr, hrest, hv]; rfl⟩

/-- The first of the words fetched, and where the next come from. -/
theorem wordsFrom_eq_cons {a v : Int} {k : Nat} (h : wordsFrom s a (k + 1) = v :: ws) :
    s.mem.read a.toNat = v ∧ wordsFrom s (a + 1) k = ws := by
  unfold wordsFrom at h
  split at h
  · exact List.cons.inj h
  · cases h

/-! ### What a fetch answers -/

theorem fetchInstr_of_decode_ok (h : decode s.cfg.extraModeDigits (wordsFrom s s.ip maxLength) = .ok (i, rest)) :
    fetchInstr s = .ok i := by
  rw [fetchInstr, h]

theorem fetchInstr_of_decode_error {e : DecodeError}
    (h : decode s.cfg.extraModeDigits (wordsFrom s s.ip maxLength) = .error e) :
    fetchInstr s = .error (decodeFault s e) := by
  rw [fetchInstr, h]

theorem step_of_fetch_ok (hs : s.status = .running) (h : fetchInstr s = .ok i) : step s = exec i s := by
  rw [step_of_running hs, h]

theorem step_of_fetch_error {f : FaultInfo} (hs : s.status = .running) (h : fetchInstr s = .error f) :
    step s = .next (s.raise f) := step_next.2 ⟨hs, .inr ⟨f, h, rfl⟩⟩

theorem fetchInstr_outside (h : ¬ inRange s.cfg s.ip) : fetchInstr s = .error ⟨.outOfBounds, 0, some s.ip⟩ := by
  have hw : wordsFrom s s.ip maxLength = [] := if_neg h
  rw [fetchInstr_of_decode_error (e := .missing 0) (by rw [hw, decode_nil])]
  simp [decodeFault]

/-! ### Faults, with the record written out -/

/-- The entry into a fault of an instruction word that stands in memory. -/
theorem raise_of_inRange {w : Int} {f : FaultInfo} (hr : inRange s.cfg s.ip) (hw : s.mem.read s.ip.toNat = w) :
    s.raise f = Reference.raise s f.cause (some w) f.param f.addr := by
  rw [State.raise, faultWord_of_inRange hr, hw]; rfl

theorem step_outside (hs : s.status = .running) (hr : ¬ inRange s.cfg s.ip) :
    step s = .next (Reference.raise s .outOfBounds none 0 (some s.ip)) := by
  rw [step_of_fetch_error hs (fetchInstr_outside hr), State.raise, faultWord_of_not_inRange hr]; rfl

/-- A verdict of the decoder on a word in memory is a fault with that word. -/
theorem step_of_decode_error {w : Int} {e : DecodeError} (hs : s.status = .running) (hr : inRange s.cfg s.ip)
    (hw : s.mem.read s.ip.toNat = w) (h : decode s.cfg.extraModeDigits (w :: wordsFrom s (s.ip + 1) 3) = .error e) :
    step s = .next (Reference.raise s (decodeFault s e).cause (some w) (decodeFault s e).param (decodeFault s e).addr) := by
  rw [← hw, ← wordsFrom_of_inRange hr] at h
  rw [step_of_fetch_error hs (fetchInstr_of_decode_error h), raise_of_inRange hr hw]

theorem step_illegalOpcode {w : Int} (hs : s.status = .running) (hr : inRange s.cfg s.ip)
    (hw : s.mem.read s.ip.toNat = w) (h : w < 0 ∨ arityOf (w.toNat % 100) = none) :
    step s = .next (Reference.raise s .illegalOpcode (some w) 0 none) :=
  step_of_decode_error hs hr hw (decode_illegalOpcode h)

section
variable {w n : Nat} (hs : s.status = .running) (hr : inRange s.cfg s.ip) (hw : s.mem.read s.ip.toNat = (w : Int))
  (hop : arityOf (w % 100) = some n)
include hs hr hw hop

theorem step_illegalMode {k : Nat} (h : illegalModeAt n w = some k) :
    step s = .next (Reference.raise s .illegalMode (some (w : Int)) k none) :=
  step_of_decode_error hs hr hw (decode_illegalMode hop h)

theorem step_extraDigit (hm : illegalModeAt n w = none)
    (hx : s.cfg.extraModeDigits = .fault ∧ w / 10 ^ (n + 2) ≠ 0) :
    step s = .next (Reference.raise s .illegalMode (some (w : Int)) (n + 1) none) :=
  step_of_decode_error hs hr hw (decode_extraDigit hop hm hx)

/-- Parameter word `k` is the first that lies outside memory. -/
theorem step_missing {k : Nat} (hm : illegalModeAt n w = none)
    (hx : ¬ (s.cfg.extraModeDigits = .fault ∧ w / 10 ^ (n + 2) ≠ 0)) (h1 : 1 ≤ k) (hk : k ≤ n)
    (hin : ∀ j : Nat, 1 ≤ j → j < k → s.ip + j < s.cfg.memSize) (hout : s.ip + k ≥ s.cfg.memSize) :
    step s = .next (Reference.raise s .outOfBounds (some (w : Int)) k (some (s.ip + k))) := by
  have hlen : (wordsFrom s (s.ip + 1) 3).length + 1 = k := by
    have hn := arityOf_le hop
    obtain ⟨h0, hend⟩ := hr
    rw [wordsFrom_length (by omega)]
    have hlast : k = 1 ∨ s.ip + (k - 1 : Nat) < s.cfg.memSize := by
      by_cases hk1 : k = 1
      · exact .inl hk1
      · exact .inr (hin (k - 1) (by omega) (by omega))
    omega
  have hd := decode_missing hop hm hx (ws := wordsFrom s (s.ip + 1) 3) (by omega)
  rw [hlen] at hd
  exact step_of_decode_error hs hr hw hd

end

/-- The exceptions that every rule shares, for every opcode. -/
theorem fetchExceptions {op n : Nat} (h : arityOf op = some n) : Reference.FetchExceptions op n := by
  rintro s w hs hr hw rfl
  refine ⟨fun i h1 hn hfirst hi => step_illegalMode hs hr hw h (illegalModeAt_eq_some h1 hn hi hfirst),
    fun i h1 hn hlegal hx hin hout => ?_⟩
  exact step_missing hs hr hw h (illegalModeAt_eq_none.2 hlegal) (fun hx' => hx'.2 (hx hx'.1)) h1 hn hin hout

end

/-- Settles O19: the fetch gives the decoded instruction; an encoding in memory is fetched whole and decodes to it. -/
theorem stepRunsDecodedInstruction : Obligations.StepRunsDecodedInstruction := by
  refine ⟨fun s i rest hs h => step_of_fetch_ok hs (fetchInstr_of_decode_ok h), fun s i hs h => ?_⟩
  have hlen : (encode i).length ≤ maxLength := encode_length i ▸ length_le_maxLength i
  obtain ⟨rest, hrest⟩ := wordsFrom_of_stored hlen h
  refine step_of_fetch_ok hs (fetchInstr_of_decode_ok (rest := rest) ?_)
  rw [hrest, decode_encode]

/-- Settles O20, status by status. -/
theorem stepNeedsRunning : Obligations.StepNeedsRunning := by
  intro s hs
  cases h : s.status with
  | running => exact absurd h hs
  | ready | suspended | terminated | faulted => simp [step, h]

/-- Settles O22: by the inversion lemma of the step. -/
theorem runningStepEndsInOneOfFourWays : Obligations.RunningStepEndsInOneOfFourWays := by
  intro s hs
  obtain ⟨t, ht⟩ := step_is_next hs
  refine ⟨t, ht, ?_⟩
  obtain hr | ⟨rfl, hq, a, -, hf, -⟩ | ⟨rfl, hf⟩ | ⟨f, rfl, -⟩ := step_status ht
  · exact .inl hr
  · exact .inr (.inl ⟨rfl, hq, a, hf⟩)
  · exact .inr (.inr (.inl ⟨rfl, hf⟩))
  · exact .inr (.inr (.inr rfl))

/-- Settles O23: a step that faults is the entry into one of its possible faults, and that writes the record alone. -/
theorem faultsArePrecise : Obligations.FaultsArePrecise := by
  intro s t _ hst ht
  obtain ⟨f, hf, rfl⟩ := step_faults hst ht
  refine ⟨_, rfl, rfl, ?_, ?_⟩
  · intro hnone
    obtain ⟨hr, rfl⟩ | ⟨hr, -⟩ := hf
    · exact ⟨rfl, rfl, rfl, hr⟩
    · rw [faultWord_of_inRange hr] at hnone; cases hnone
  · intro w hw
    by_cases hr : inRange s.cfg s.ip
    · rw [faultWord_of_inRange hr] at hw
      cases hw
      exact ⟨hr, rfl⟩
    · rw [faultWord_of_not_inRange hr] at hw; cases hw

/-- Settles O24: no word is fetched outside memory. -/
theorem fetchOutsideMemoryFaults : Obligations.FetchOutsideMemoryFaults := by
  intro s hs h
  exact step_outside hs fun hr => by obtain ⟨h0, h1⟩ := hr; omega

/-- Settles O25: these words are those that select no row of the opcode map. -/
theorem illegalOpcodesFault : Obligations.IllegalOpcodesFault := by
  intro s w hs hr hw h
  refine step_illegalOpcode hs hr hw ?_
  by_cases h0 : w < 0
  · exact .inl h0
  · right
    cases harity : arityOf (w.toNat % 100) with
    | none => rfl
    | some n =>
      have := arityOf_eq_some harity
      omega

/-- Settles O26: the decoder by arity gives the first verdict of S3 and then the first word missing in S4. -/
theorem modeDigitsAndParameterWordsAreChecked : Obligations.ModeDigitsAndParameterWordsAreChecked :=
  fun _ _ => fetchExceptions

end Sys2Proof.Machine
end

section
/-! PROOFS. The rules of the instructions (41_arithmetic.md to 45_base_and_halt.md): encoding, exceptions in order, effect. -/

namespace Sys2Proof.Machine

section
variable {i : Instr} {s t : State} {f : FaultInfo}

theorem exec_of_effect (h : effectOf i s = .ok t) : exec i s = .next t := exec_next.2 (.inl h)

theorem exec_of_fault (h : effectOf i s = .error f) : exec i s = .next (s.raise f) := exec_next.2 (.inr ⟨f, h, rfl⟩)

/-! ### Formats F3 and F2 -/

/-- What every rule of format F3 says follows from how the meaning is made of the ALU's function. -/
theorem threeOperandRule {op : Nat} {mk : Param → Param → Param → Instr} {alu : Config → Int → Int → Option Int}
    {f : Config → Int → Int → Except FaultInfo Int} (hop : (op, mk) ∈ [(1, Instr.add), (2, .mul), (7, .lt), (8, .eq)])
    (heff : ∀ a b c s, effectOf (mk a b c) s = alu3 f a b c s)
    (hnone : ∀ c x y, alu c x y = none → f c x y = .error ⟨.arithOverflow, 0, none⟩)
    (hsome : ∀ c x y r, alu c x y = some r → f c x y = .ok r) : Reference.ThreeOperandRule op mk alu := by
  have harity : Reference.arityOf op = some 3 := by
    simp only [List.mem_cons, Prod.mk.injEq, List.not_mem_nil, or_false] at hop
    obtain ⟨rfl, -⟩ | ⟨rfl, -⟩ | ⟨rfl, -⟩ | ⟨rfl, -⟩ := hop <;> rfl
  refine ⟨fetchExceptions harity, fun s a b c => ⟨(encodingFormula a b c).1 (op, mk) hop, ?_, ?_, ?_, ?_, ?_⟩⟩
  · exact fun e ha => exec_of_fault ((heff ..).trans (alu3_error.2 (.inl ha)))
  · exact fun x e ha hb => exec_of_fault ((heff ..).trans (alu3_error.2 (.inr ⟨x, ha, .inl hb⟩)))
  · exact fun x y e ha hb hc =>
      exec_of_fault ((heff ..).trans (alu3_error.2 (.inr ⟨x, ha, .inr ⟨y, hb, .inl hc⟩⟩)))
  · exact fun x y d ha hb hc hr =>
      exec_of_fault ((heff ..).trans (alu3_error.2 (.inr ⟨x, ha, .inr ⟨y, hb, .inr ⟨d, hc, hnone _ _ _ hr⟩⟩⟩)))
  · exact fun x y d r ha hb hc hr =>
      exec_of_effect ((heff ..).trans (alu3_ok.2 ⟨x, y, d, r, ha, hb, hc, hsome _ _ _ _ hr, rfl⟩))

/-- The same for format F2, with the condition of the jump. -/
theorem jumpRule {op : Nat} {mk : Param → Param → Instr} {p : Int → Bool} (hop : (op, mk) ∈ [(5, Instr.jt), (6, .jf)])
    (heff : ∀ a b s, effectOf (mk a b) s = jump2 p a b s) : Reference.JumpRule op mk (fun x => p x = true) := by
  have harity : Reference.arityOf op = some 2 := by
    simp only [List.mem_cons, Prod.mk.injEq, List.not_mem_nil, or_false] at hop
    obtain ⟨rfl, -⟩ | ⟨rfl, -⟩ := hop <;> rfl
  refine ⟨fetchExceptions harity, fun s a b => ⟨(encodingFormula a b a).2.1 (op, mk) hop, ?_, ?_, ?_, ?_⟩⟩
  · exact fun e ha => exec_of_fault ((heff ..).trans (jump2_error.2 (.inl ha)))
  · exact fun x e ha hb => exec_of_fault ((heff ..).trans (jump2_error.2 (.inr ⟨x, ha, hb⟩)))
  · exact fun x y ha hb hp =>
      exec_of_effect ((heff ..).trans (jump2_ok.2 ⟨x, y, ha, hb, (if_pos (c := p x = true) hp).symm⟩))
  · exact fun x y ha hb hp =>
      exec_of_effect ((heff ..).trans (jump2_ok.2 ⟨x, y, ha, hb, (if_neg (c := p x = true) hp).symm⟩))

/-- A result that is checked for being a word: none is the overflow. -/
theorem checkWord_of_none {c : Config} {r : Int} (h : (if inWord c.wordBits r then some r else none) = none) :
    checkWord c r = .error ⟨.arithOverflow, 0, none⟩ := by
  refine checkWord_error.2 ⟨fun hr => ?_, rfl⟩
  rw [if_pos hr] at h; cases h

theorem checkWord_of_some {c : Config} {r v : Int} (h : (if inWord c.wordBits r then some r else none) = some v) :
    checkWord c r = .ok v := by
  obtain ⟨hr, hv⟩ := Option.ite_none_right_eq_some.1 h
  exact checkWord_ok.2 ⟨hr, (Option.some.inj hv).symm⟩

end

/-- Settles O31: ADD is the format F3 of the checked sum. -/
theorem addRule : Obligations.AddRule :=
  threeOperandRule (f := aluAdd) (by simp) (fun _ _ _ _ => rfl) (fun _ _ _ => checkWord_of_none)
    (fun _ _ _ _ => checkWord_of_some)

/-- Settles O32: MUL is the format F3 of the checked product. -/
theorem mulRule : Obligations.MulRule :=
  threeOperandRule (f := aluMul) (by simp) (fun _ _ _ _ => rfl) (fun _ _ _ => checkWord_of_none)
    (fun _ _ _ _ => checkWord_of_some)

/-- Settles O33: the comparison gives a word for all integers, so the clause on overflow is empty. -/
theorem ltRule : Obligations.LtRule :=
  threeOperandRule (f := aluLt) (by simp) (fun _ _ _ _ => rfl) (fun _ _ _ h => nomatch h)
    (fun _ _ _ _ h => congrArg Except.ok (Option.some.inj h))

/-- Settles O34, as O33. -/
theorem eqRule : Obligations.EqRule :=
  threeOperandRule (f := aluEq) (by simp) (fun _ _ _ _ => rfl) (fun _ _ _ h => nomatch h)
    (fun _ _ _ _ h => congrArg Except.ok (Option.some.inj h))

/-- Settles O35: JT is the format F2 of a condition that is not 0. -/
theorem jtRule : Obligations.JtRule := by
  unfold Obligations.JtRule
  have h := jumpRule (op := 5) (mk := .jt) (by simp) fun _ _ _ => rfl
  simpa only [decide_eq_true_eq] using h

/-- Settles O36: JF is the format F2 of a condition that is 0. -/
theorem jfRule : Obligations.JfRule := by
  unfold Obligations.JfRule
  have h := jumpRule (op := 6) (mk := .jf) (by simp) fun _ _ _ => rfl
  simpa only [decide_eq_true_eq] using h

/-! ### Format F1 and HLT -/

theorem encode_one_parameter (a : Param) :
    encode (.inp a) = [((3 + 100 * a.mode.digit : Nat) : Int), a.raw]
    ∧ encode (.out a) = [((4 + 100 * a.mode.digit : Nat) : Int), a.raw]
    ∧ encode (.arb a) = [((9 + 100 * a.mode.digit : Nat) : Int), a.raw] := by
  obtain ⟨-, -, h, -⟩ := encodingFormula a a a
  exact ⟨h (3, .inp) (by simp), h (4, .out) (by simp), h (9, .arb) (by simp)⟩

/-- Settles O37: the destination is resolved first, then the queue is tested. -/
theorem inRule : Obligations.InRule := by
  refine ⟨fetchExceptions rfl, fun s a => ⟨(encode_one_parameter a).1, fun f hd => ?_, fun d hd hq => ?_,
    fun d v rest hd hq => ?_⟩⟩
  · exact exec_of_fault (inputEffect_error.2 hd)
  · exact exec_of_effect (inputEffect_ok.2 ⟨d, hd, .inl ⟨hq, rfl⟩⟩)
  · exact exec_of_effect (inputEffect_ok.2 ⟨d, hd, .inr ⟨v, rest, hq, rfl⟩⟩)

/-- Settles O38: by what the effect of OUT answers. -/
theorem outRule : Obligations.OutRule := by
  refine ⟨fetchExceptions rfl, fun s a => ⟨(encode_one_parameter a).2.1, fun f ha => ?_, fun x hx => ?_⟩⟩
  · exact exec_of_fault (outputEffect_error.2 ha)
  · exact exec_of_effect (outputEffect_ok.2 ⟨x, hx, rfl⟩)

/-- Settles O39: by what the effect of ARB answers, whose operand is read before the base changes. -/
theorem arbRule : Obligations.ArbRule := by
  refine ⟨fetchExceptions rfl, fun s a => ⟨(encode_one_parameter a).2.2, fun f ha => ?_, fun x hx hw => ?_,
    fun x hx hw => ?_⟩⟩
  · exact exec_of_fault (adjustBase_error.2 (.inl ha))
  · have he : effectOf (.arb a) s = .error _ := adjustBase_error.2 (.inr ⟨x, hx, hw, rfl⟩)
    exact exec_of_fault he
  · exact exec_of_effect (adjustBase_ok.2 ⟨x, hx, hw, rfl⟩)

/-- Settles O40: opcode 99 has no parameters, so its extra digits are all that can fault. -/
theorem hltRule : Obligations.HltRule := by
  refine ⟨rfl, fun s => rfl, fun s w hs hr hw hop => ?_⟩
  have harity : Reference.arityOf (w % 100) = some 0 := by rw [hop]; rfl
  split
  · next hx => exact step_extraDigit hs hr hw harity rfl hx
  · next hx =>
    have hd : decode s.cfg.extraModeDigits (wordsFrom s s.ip maxLength) = .ok (.hlt, wordsFrom s (s.ip + 1) 3) := by
      rw [wordsFrom_of_inRange hr, hw, decode_natCast]
      exact decodeOpcode_ok.2 ⟨hop, rfl, trivial, fun hf => not_not.1 fun h0 => hx ⟨hf, h0⟩⟩
    exact step_of_fetch_ok hs (fetchInstr_of_decode_ok hd)

/-- Settles O17: each pseudo-instruction is its expansion, whose encoding and effect the rules give. -/
theorem pseudoInstructions : Obligations.PseudoInstructions := by
  have hjmp : ∀ (s : State) (t : Param) (y : Int), valueOf s 2 t = .ok y → exec (jmp t) s = .next { s with ip := y } := by
    intro s t y hy
    obtain ⟨-, -, -, htaken, -⟩ := jtRule.2 s ⟨.immediate, 1⟩ t
    exact htaken 1 y rfl hy (by decide)
  refine ⟨fun t => rfl, fun t => ?_, fun src dst => ?_, rfl, fun s t => hjmp s _ t rfl, hjmp, fun s => ?_,
    fun s src dst x d hx hd hw => ?_⟩
  · exact (jtRule.2 State.reset ⟨.immediate, 1⟩ t).1
  · rw [mov, (addRule.2 State.reset src ⟨.immediate, 0⟩ dst).1]
    simp only [Mode.digit]
    congr 2
    omega
  · obtain ⟨-, -, -, -, hskip⟩ := jfRule.2 s ⟨.immediate, 1⟩ ⟨.immediate, 0⟩
    exact hskip 1 0 rfl rfl (by decide)
  · obtain ⟨-, -, -, -, -, hsum⟩ := addRule.2 s src ⟨.immediate, 0⟩ dst
    refine hsum x 0 d x hx rfl hd ?_
    show (if inWord s.cfg.wordBits (x + 0) then some (x + 0) else none) = some x
    rw [add_zero, if_pos hw]

end Sys2Proof.Machine
end

section
/-! PROOFS. The step is the pseudocode of 40_execution_cycle.md (R101 to R104): stages S1 to S4 are the fetch, stages S5 to S7
the meaning of the instruction fetched. -/

namespace Sys2Proof.Machine

open Reference (arityOf upTo resolve resolveAll effect isWrite writeResult)

section
variable {s : State} {w : Int} (hr : inRange s.cfg s.ip) (hw : s.mem.read s.ip.toNat = w)

/-! ### Stage S5, one parameter -/

section
include hr hw

/-- The bounds check of an address in the two accounts; `f` is what is made of a legal one. -/
theorem resolve_address {α : Type} (k : Nat) (a : Int) (f : Nat → α) :
    (if a < 0 ∨ a ≥ s.cfg.memSize then .error (Reference.raise s .outOfBounds (some w) k (some a)) else .ok (f a.toNat))
      = ((checkAddress s k a).map f).mapError s.raise := by
  by_cases ha : inRange s.cfg a
  · have hin : ¬ (a < 0 ∨ a ≥ s.cfg.memSize) := by obtain ⟨h0, h1⟩ := ha; omega
    rw [if_neg hin, checkAddress_ok.2 ⟨ha, rfl⟩]
    rfl
  · have hout : a < 0 ∨ a ≥ s.cfg.memSize := by by_contra h; exact ha ⟨by omega, by omega⟩
    rw [if_pos hout, checkAddress_error.2 ⟨ha, rfl⟩]
    exact congrArg Except.error (raise_of_inRange (f := ⟨.outOfBounds, k, some a⟩) hr hw).symm

/-- R102 in the two accounts. -/
theorem resolve_read (k : Nat) (p : Param) :
    resolve s w false k p.mode.digit p.raw = (valueOf s k p).mapError s.raise := by
  obtain ⟨m, r⟩ := p
  cases m with
  | position => exact resolve_address hr hw k r _
  | immediate => rfl
  | relative => exact resolve_address hr hw k (r + s.rb) _

/-- R103 in the two accounts; the pseudocode has the address as an integer. -/
theorem resolve_write (k : Nat) (p : Param) :
    resolve s w true k p.mode.digit p.raw = ((addressOf s k p).map (fun d : Nat => (d : Int))).mapError s.raise := by
  have hcast : ∀ a : Int,
      (if a < 0 ∨ a ≥ s.cfg.memSize then .error (Reference.raise s .outOfBounds (some w) k (some a)) else .ok a)
        = ((checkAddress s k a).map (fun d : Nat => (d : Int))).mapError s.raise := by
    intro a
    rw [← resolve_address hr hw]
    split
    · rfl
    · next h => rw [Int.toNat_of_nonneg (by omega)]
  obtain ⟨m, r⟩ := p
  cases m with
  | position => exact hcast r
  | immediate => exact congrArg Except.error (raise_of_inRange (f := ⟨.immediateWrite, k, none⟩) hr hw).symm
  | relative => exact hcast (r + s.rb)

end

/-- The digits of the word at `ip` and the words after it are those of the parameters, the first of them parameter `k`. -/
def OperandsAt (s : State) (w : Int) : Nat → List Param → Prop
  | _, [] => True
  | k, p :: ps =>
    (digit w.toNat (k + 1) = p.mode.digit ∧ s.mem.read (s.ip + k).toNat = p.raw) ∧ OperandsAt s w (k + 1) ps

theorem operandsAt_of_decoded {k n : Nat} {ps : List Param} {rest : List Int} (hmodes : modesMatch w.toNat k ps)
    (hwords : wordsFrom s (s.ip + k) n = ps.map Param.raw ++ rest) : OperandsAt s w k ps := by
  induction ps generalizing k n with
  | nil => trivial
  | cons p ps ih =>
    cases n with
    | zero => cases hwords
    | succ n =>
      obtain ⟨hfirst, hrest⟩ := wordsFrom_eq_cons hwords
      obtain ⟨hdigit, hmodes⟩ := hmodes
      rw [add_assoc] at hrest
      exact ⟨⟨hdigit, hfirst⟩, ih hmodes hrest⟩

/-! ### Stages S5 to S7 -/

/-- Stages S5 to S7 of the pseudocode for the parameters with the numbers `is`, `finish` being what S6 and S7 make of their
values. -/
def stagesFrom (s : State) (w : Int) (op : Nat) (finish : List Int → State) (is : List Nat) : State :=
  match resolveAll s w op is with
  | .error t => t
  | .ok xs => finish xs

/-- One parameter: where the two accounts resolve it alike, they agree if they do on what comes after it. -/
theorem commit_bind_eq_stages {α : Type} {r : Except FaultInfo α} {value : α → Int} {g : α → Except FaultInfo State}
    {op k : Nat} {finish : List Int → State} {is : List Nat}
    (hres : resolve s w (isWrite op k) k (digit w.toNat (k + 1)) (s.mem.read (s.ip + k).toNat)
      = (r.map value).mapError s.raise)
    (h : ∀ x, commit s (g x) = .next (stagesFrom s w op (fun xs => finish (value x :: xs)) is)) :
    commit s (r >>= g) = .next (stagesFrom s w op finish (k :: is)) := by
  rw [stagesFrom, resolveAll, hres]
  cases r with
  | error e => rfl
  | ok x =>
    refine (h x).trans (congrArg Host.Outcome.next ?_)
    show stagesFrom s w op (fun xs => finish (value x :: xs)) is = _
    unfold stagesFrom
    cases resolveAll s w op is <;> rfl

section
variable {op k : Nat} {finish : List Int → State} {is : List Nat} {p : Param}
include hr hw

theorem commit_valueOf_eq_stages {g : Int → Except FaultInfo State}
    (hp : digit w.toNat (k + 1) = p.mode.digit ∧ s.mem.read (s.ip + k).toNat = p.raw) (hop : isWrite op k = false)
    (h : ∀ x, commit s (g x) = .next (stagesFrom s w op (fun xs => finish (x :: xs)) is)) :
    commit s (valueOf s k p >>= g) = .next (stagesFrom s w op finish (k :: is)) := by
  refine commit_bind_eq_stages (value := id) ?_ h
  rw [hp.1, hp.2, hop, resolve_read hr hw]
  cases valueOf s k p <;> rfl

theorem commit_addressOf_eq_stages {g : Nat → Except FaultInfo State}
    (hp : digit w.toNat (k + 1) = p.mode.digit ∧ s.mem.read (s.ip + k).toNat = p.raw) (hop : isWrite op k = true)
    (h : ∀ d : Nat, commit s (g d) = .next (stagesFrom s w op (fun xs => finish ((d : Int) :: xs)) is)) :
    commit s (addressOf s k p >>= g) = .next (stagesFrom s w op finish (k :: is)) := by
  refine commit_bind_eq_stages ?_ h
  rw [hp.1, hp.2, hop, resolve_write hr hw]

/-- Format F3. -/
theorem commit_alu3_eq_stages {f : Config → Int → Int → Except FaultInfo Int} {a b c : Param}
    (hop : isWrite op 1 = false ∧ isWrite op 2 = false ∧ isWrite op 3 = true) (hargs : OperandsAt s w 1 [a, b, c])
    (h : ∀ (x y : Int) (d : Nat),
      commit s (f s.cfg x y >>= fun r => pure ((s.store d r).advance 4)) = .next (effect s w op [x, y, (d : Int)])) :
    commit s (alu3 f a b c s) = .next (stagesFrom s w op (effect s w op) (upTo 3)) := by
  obtain ⟨ha, hb, hc, -⟩ := hargs
  exact commit_valueOf_eq_stages hr hw ha hop.1 fun x => commit_valueOf_eq_stages hr hw hb hop.2.1 fun y =>
    commit_addressOf_eq_stages hr hw hc hop.2.2 fun d => h x y d

/-- Format F2. -/
theorem commit_jump2_eq_stages {taken : Int → Bool} {a b : Param} (hop : isWrite op 1 = false ∧ isWrite op 2 = false)
    (hargs : OperandsAt s w 1 [a, b])
    (h : ∀ x y : Int, (if taken x then s.jump y else s.advance 3) = effect s w op [x, y]) :
    commit s (jump2 taken a b s) = .next (stagesFrom s w op (effect s w op) (upTo 2)) := by
  obtain ⟨ha, hb, -⟩ := hargs
  exact commit_valueOf_eq_stages hr hw ha hop.1 fun x => commit_valueOf_eq_stages hr hw hb hop.2 fun y =>
    congrArg Host.Outcome.next (h x y)

/-- S6 and S7 where the result must be a word. -/
theorem commit_checkWord (d : Nat) (v : Int) :
    commit s (checkWord s.cfg v >>= fun r => pure ((s.store d r).advance 4)) = .next (writeResult s w d v) := by
  by_cases hv : inWord s.cfg.wordBits v
  · rw [checkWord_ok.2 ⟨hv, rfl⟩, writeResult, if_pos hv]; rfl
  · rw [checkWord_error.2 ⟨hv, rfl⟩, writeResult, if_neg hv]
    exact congrArg Host.Outcome.next (raise_of_inRange (f := ⟨.arithOverflow, 0, none⟩) hr hw)

theorem inputEffect_eq_stages {a : Param} (hargs : OperandsAt s w 1 [a]) :
    commit s (inputEffect a s) = .next (stagesFrom s w 3 (effect s w 3) (upTo 1)) := by
  refine commit_addressOf_eq_stages hr hw hargs.1 rfl fun d => ?_
  show _ = Host.Outcome.next (effect s w 3 [(d : Int)])
  unfold effect
  cases s.inq <;> rfl

theorem adjustBase_eq_stages {a : Param} (hargs : OperandsAt s w 1 [a]) :
    commit s (adjustBase a s) = .next (stagesFrom s w 9 (effect s w 9) (upTo 1)) := by
  refine commit_valueOf_eq_stages hr hw hargs.1 rfl fun x => ?_
  show commit s (checkWord s.cfg (s.rb + x) >>= fun r => pure (State.advance { s with rb := r } 2))
    = .next (if inWord s.cfg.wordBits (s.rb + x) then { s with rb := s.rb + x, ip := s.ip + 2 }
        else Reference.raise s .arithOverflow (some w) 0 none)
  by_cases hv : inWord s.cfg.wordBits (s.rb + x)
  · rw [checkWord_ok.2 ⟨hv, rfl⟩, if_pos hv]; rfl
  · rw [checkWord_error.2 ⟨hv, rfl⟩, if_neg hv]
    exact congrArg Host.Outcome.next (raise_of_inRange (f := ⟨.arithOverflow, 0, none⟩) hr hw)

/-- The meaning of an instruction is stages S5 to S7 of its opcode. -/
theorem exec_eq_stages {i : Instr} (hargs : OperandsAt s w 1 i.params) :
    exec i s = .next (stagesFrom s w i.opcode (effect s w i.opcode) (upTo i.arity)) := by
  rw [exec_eq_commit]
  cases i with
  | add a b c | mul a b c =>
    exact commit_alu3_eq_stages hr hw ⟨rfl, rfl, rfl⟩ hargs fun x y d => commit_checkWord hr hw d _
  | lt a b c | eq a b c => exact commit_alu3_eq_stages hr hw ⟨rfl, rfl, rfl⟩ hargs fun x y d => rfl
  | inp a => exact inputEffect_eq_stages hr hw hargs
  | out a => exact commit_valueOf_eq_stages hr hw hargs.1 rfl fun x => rfl
  | jt a b | jf a b =>
    refine commit_jump2_eq_stages hr hw ⟨rfl, rfl⟩ hargs fun x y => ?_
    simp only [decide_eq_true_eq]
    rfl
  | arb a => exact adjustBase_eq_stages hr hw hargs
  | hlt => rfl

end

/-! ### Stage S4 -/

/-- The number of the first parameter word that lies outside memory, of an opcode of arity `n`. -/
def firstOutside (s : State) (n : Nat) : Option Nat := (upTo n).find? fun k : Nat => decide (s.ip + k ≥ s.cfg.memSize)

theorem firstOutside_eq_none {n : Nat} :
    firstOutside s n = none ↔ ∀ k : Nat, 1 ≤ k → k ≤ n → s.ip + k < s.cfg.memSize := by
  simp only [firstOutside, find?_upTo_eq_none, decide_eq_false_iff_not, not_le, ge_iff_le]

theorem firstOutside_eq_some {n k : Nat} :
    firstOutside s n = some k ↔ 1 ≤ k ∧ k ≤ n ∧ s.ip + k ≥ s.cfg.memSize
      ∧ ∀ j : Nat, 1 ≤ j → j < k → s.ip + j < s.cfg.memSize := by
  simp only [firstOutside, find?_upTo_eq_some, decide_eq_true_eq, decide_eq_false_iff_not, not_le, ge_iff_le]

/-! ### All stages -/

/-- With every word of the instruction in memory and nothing in it illegal, the step is stages S5 to S7. -/
theorem step_eq_stages {w n : Nat} (hs : s.status = .running) (hr : inRange s.cfg s.ip)
    (hw : s.mem.read s.ip.toNat = (w : Int)) (hop : arityOf (w % 100) = some n) (hm : illegalModeAt n w = none)
    (hx : ¬ (s.cfg.extraModeDigits = .fault ∧ w / 10 ^ (n + 2) ≠ 0)) (hin : firstOutside s n = none) :
    step s = .next (stagesFrom s w (w % 100) (effect s w (w % 100)) (upTo n)) := by
  have hlen : n ≤ (wordsFrom s (s.ip + 1) 3).length := by
    have hn := arityOf_le hop
    obtain ⟨h0, hend⟩ := hr
    rw [wordsFrom_length (by omega)]
    have hlast : n = 0 ∨ s.ip + (n : Nat) < s.cfg.memSize := by
      by_cases hn0 : n = 0
      · exact .inl hn0
      · exact .inr (firstOutside_eq_none.1 hin n (by omega) le_rfl)
    omega
  obtain ⟨i, rest, hd⟩ := decode_succeeds hop hm hx hlen
  have hfetch := hd
  rw [← hw, ← wordsFrom_of_inRange hr] at hfetch
  rw [decode_natCast] at hd
  obtain ⟨hcode, hwords, hmodes, -⟩ := decodeOpcode_ok.1 hd
  rw [hcode, arityOf_opcode] at hop
  cases hop
  rw [step_of_fetch_ok hs (fetchInstr_of_decode_ok hfetch), hcode]
  exact exec_eq_stages hr hw (operandsAt_of_decoded (n := 3) hmodes hwords)

end

/-- Settles O21: the tests of stages S1 to S4 in the pseudocode's order, each with the verdict of the fetch for it; then
stages S5 to S7. -/
theorem stepFollowsTheStages : Obligations.StepFollowsTheStages := by
  intro s hs
  unfold Reference.step
  split
  · next hout => exact step_outside hs fun hr => by obtain ⟨h0, h1⟩ := hr; omega
  next hin =>
  have hr : inRange s.cfg s.ip := ⟨by omega, by omega⟩
  dsimp only
  split
  · next hneg => exact step_illegalOpcode hs hr rfl (.inl hneg)
  next hpos =>
  obtain ⟨w, hw⟩ := Int.eq_ofNat_of_zero_le (not_lt.1 hpos)
  rw [hw, Int.toNat_natCast]
  split
  · next hnone => exact step_illegalOpcode hs hr hw (.inr hnone)
  next n hop =>
  split
  · next k hk => exact step_illegalMode hs hr hw hop hk
  next hm =>
  split
  · next hx => exact step_extraDigit hs hr hw hop hm hx
  next hx =>
  split
  · next k hk =>
    obtain ⟨h1, hn, hout, hfirst⟩ := firstOutside_eq_some.1 hk
    exact step_missing hs hr hw hop hm hx h1 hn hfirst hout
  next hall => exact step_eq_stages hs hr hw hop hm hx hall

end Sys2Proof.Machine
end

section
/-! PROOFS. Frames (40_execution_cycle.md section 4): what each instruction leaves unchanged. -/

namespace Sys2Proof.Machine

section
variable {s t : State} {i : Instr}

/-- Where an instruction faults, the status and the record are all that changes. -/
theorem raise_frame (s : State) (f : FaultInfo) :
    s.raise f = { s with status := .faulted, fault := (s.raise f).fault } := rfl

/-- The four instructions that store are of format F3. -/
theorem effectOf_of_mem_storing {a b c : Param} (h : i ∈ [.add a b c, .mul a b c, .lt a b c, .eq a b c]) :
    ∃ f, effectOf i s = alu3 f a b c s := by
  simp only [List.mem_cons, List.not_mem_nil, or_false] at h
  obtain rfl | rfl | rfl | rfl := h
  · exact ⟨aluAdd, rfl⟩
  · exact ⟨aluMul, rfl⟩
  · exact ⟨aluLt, rfl⟩
  · exact ⟨aluEq, rfl⟩

/-- A store at a resolved address changes no other word, and does not happen where the address does not resolve. -/
theorem write_frame {k d : Nat} {p : Param} {m : Memory} {v : Int} (hd : addressOf s k p = .ok d)
    (hm : m = s.mem.write d v) :
    (∀ d, addressOf s k p = .ok d → ∀ e, e ≠ d → m.read e = s.mem.read e)
    ∧ ∀ f, addressOf s k p = .error f → m = s.mem := by
  subst hm
  refine ⟨fun d' hd' e he => ?_, fun f hf => ?_⟩
  · rw [hd] at hd'
    cases hd'
    exact Memory.read_write_other s.mem v he
  · rw [hd] at hf; cases hf

/-- An effect that stores nothing keeps memory, the input queue and, each but one, the output queue and the base. -/
theorem effectOf_frame_of_mem_nonStoring {a b : Param} (h : i ∈ [.out a, .jt a b, .jf a b, .arb a, .hlt])
    (he : effectOf i s = .ok t) :
    t.cfg = s.cfg ∧ t.inq = s.inq ∧ t.mem = s.mem ∧ (i ≠ .out a → t.outq = s.outq) ∧ (i ≠ .arb a → t.rb = s.rb)
      ∧ t.fault = s.fault ∧ (i ≠ .hlt → t.status = s.status) := by
  simp only [List.mem_cons, List.not_mem_nil, or_false] at h
  obtain rfl | rfl | rfl | rfl | rfl := h
  · obtain ⟨x, -, rfl⟩ := outputEffect_ok.1 he
    exact ⟨rfl, rfl, rfl, fun hne => absurd rfl hne, fun _ => rfl, rfl, fun _ => rfl⟩
  · obtain ⟨x, y, -, -, rfl⟩ := jump2_ok.1 he
    split <;> exact ⟨rfl, rfl, rfl, fun _ => rfl, fun _ => rfl, rfl, fun _ => rfl⟩
  · obtain ⟨x, y, -, -, rfl⟩ := jump2_ok.1 he
    split <;> exact ⟨rfl, rfl, rfl, fun _ => rfl, fun _ => rfl, rfl, fun _ => rfl⟩
  · obtain ⟨y, -, -, rfl⟩ := adjustBase_ok.1 he
    exact ⟨rfl, rfl, rfl, fun _ => rfl, fun hne => absurd rfl hne, rfl, fun _ => rfl⟩
  · cases he
    exact ⟨rfl, rfl, rfl, fun _ => rfl, fun _ => rfl, rfl, fun hne => absurd rfl hne⟩

end

/-- Settles O41: format F3 ends in one store, at the address of `c`, or in a fault. -/
theorem storingInstructionsFrame : Obligations.StoringInstructionsFrame := by
  intro a b c i hi s t h
  obtain ⟨f, hf⟩ := effectOf_of_mem_storing (s := s) hi
  obtain he | ⟨e, -, rfl⟩ := exec_next.1 h
  · rw [hf] at he
    obtain ⟨x, y, d, r, -, -, hd, -, rfl⟩ := alu3_ok.1 he
    exact ⟨rfl, rfl, rfl, rfl, .inl ⟨rfl, rfl⟩, write_frame hd rfl⟩
  · exact ⟨rfl, rfl, rfl, rfl, .inr (raise_frame s e), fun _ _ _ _ => rfl, fun _ _ => rfl⟩

/-- Settles O42: IN completes with one store, suspends, or faults. -/
theorem inFrame : Obligations.InFrame := by
  intro a s t h
  obtain he | ⟨e, -, rfl⟩ := exec_next.1 h
  · obtain ⟨d, hd, ⟨hq, rfl⟩ | ⟨v, rest, hq, rfl⟩⟩ := inputEffect_ok.1 he
    · exact ⟨rfl, rfl, rfl, .inr (.inl ⟨rfl, hq⟩), fun _ _ _ _ => rfl, fun _ _ => rfl⟩
    · exact ⟨rfl, rfl, rfl, .inl ⟨rfl, rfl, by rw [hq]; rfl⟩, write_frame hd rfl⟩
  · exact ⟨rfl, rfl, rfl, .inr (.inr (raise_frame s e)), fun _ _ _ _ => rfl, fun _ _ => rfl⟩

/-- Settles O43: by the frame of the effects, or that of the entry into a fault, which HLT never takes. -/
theorem nonStoringInstructionsFrame : Obligations.NonStoringInstructionsFrame := by
  intro a b i hi s t h
  obtain he | ⟨e, he, rfl⟩ := exec_next.1 h
  · obtain ⟨hcfg, hinq, hmem, hout, hrb, hfault, hstatus⟩ := effectOf_frame_of_mem_nonStoring hi he
    refine ⟨hcfg, hinq, fun _ => by rw [hmem], hout, hrb, ?_, fun hne => .inl ⟨hstatus hne, hfault⟩⟩
    rintro rfl
    cases he
    rfl
  · refine ⟨rfl, rfl, fun _ => rfl, fun _ => rfl, fun _ => rfl, ?_, fun _ => .inr (raise_frame s e)⟩
    rintro rfl
    cases he

end Sys2Proof.Machine
end

section
/-! PROOFS. The output queue (10_state.md R27, R35) and the time of input (42_io.md R141, R142). That the core does not read
a part of a queue is said as: the effect commutes with a change of that part. -/

namespace Sys2Proof.Machine

/-! ### Who changes the output queue -/

section
variable {s t : State}

theorem effectOf_outq {i : Instr} (h : effectOf i s = .ok t) :
    t.outq = s.outq ∨ ∃ a x, i = .out a ∧ valueOf s 1 a = .ok x ∧ t.outq = s.outq ++ [x] := by
  cases i with
  | add a b c | mul a b c | lt a b c | eq a b c => obtain ⟨x, y, d, r, -, -, -, -, rfl⟩ := alu3_ok.1 h; exact .inl rfl
  | inp a => obtain ⟨d, -, ⟨-, rfl⟩ | ⟨v, rest, -, rfl⟩⟩ := inputEffect_ok.1 h <;> exact .inl rfl
  | out a => obtain ⟨x, hx, rfl⟩ := outputEffect_ok.1 h; exact .inr ⟨a, x, rfl, hx, rfl⟩
  | jt a b | jf a b => obtain ⟨x, y, -, -, rfl⟩ := jump2_ok.1 h; left; split <;> rfl
  | arb a => obtain ⟨y, -, -, rfl⟩ := adjustBase_ok.1 h; exact .inl rfl
  | hlt => cases h; exact .inl rfl

theorem step_outq (h : step s = .next t) :
    t.outq = s.outq ∨ ∃ a x, fetchInstr s = .ok (.out a) ∧ valueOf s 1 a = .ok x ∧ t.outq = s.outq ++ [x] := by
  obtain ⟨-, ⟨i, hf, he⟩ | ⟨f, -, rfl⟩⟩ := step_next.1 h
  · obtain ht | ⟨f, -, rfl⟩ := exec_next.1 he
    · obtain hq | ⟨a, x, rfl, hx, hq⟩ := effectOf_outq ht
      · exact .inl hq
      · exact .inr ⟨a, x, hf, hx, hq⟩
    · exact .inl rfl
  · exact .inl rfl

theorem stateAfter_outq {n : Nat} {k : HostCall} (hx : k ≠ .execute) (hr : k ≠ .resume) (h : k.stateAfter n s = some t) :
    t.outq = s.outq ∨ k = .readOutput ∧ t = { s with outq := s.outq.tail } := by
  obtain rfl | ⟨v, -, hk⟩ | ⟨o, rfl, hk⟩ | ⟨a, v, -, hk⟩ := stateAfter_simple hx hr h
  · exact .inl rfl
  · obtain ⟨-, -, rfl⟩ := writeInput_ok.1 hk; exact .inl rfl
  · obtain ⟨-, -, rfl⟩ := readOutput_ok.1 hk; exact .inr ⟨rfl, rfl⟩
  · obtain ⟨-, -, -, rfl⟩ := writeMem_ok.1 hk; exact .inl rfl

end

/-! ### Who reads the queues -/

/-- The state with older output before that in the output queue and later input after that in the input queue. -/
def State.withQueues (older later : List Int) (s : State) : State :=
  { s with outq := older ++ s.outq, inq := s.inq ++ later }

section
variable (older later : List Int) (s : State)

theorem valueOf_withQueues (k : Nat) (p : Param) : valueOf (s.withQueues older later) k p = valueOf s k p := rfl

theorem addressOf_withQueues (k : Nat) (p : Param) : addressOf (s.withQueues older later) k p = addressOf s k p := rfl

theorem alu3_withQueues (f : Config → Int → Int → Except FaultInfo Int) (a b c : Param) :
    alu3 f a b c (s.withQueues older later) = State.withQueues older later <$> alu3 f a b c s := by
  simp only [alu3, valueOf_withQueues, addressOf_withQueues, map_bind, map_pure]
  rfl

theorem jump2_withQueues (p : Int → Bool) (a b : Param) :
    jump2 p a b (s.withQueues older later) = State.withQueues older later <$> jump2 p a b s := by
  simp only [jump2, valueOf_withQueues, map_bind, map_pure, apply_ite (State.withQueues older later)]
  rfl

theorem adjustBase_withQueues (a : Param) :
    adjustBase a (s.withQueues older later) = State.withQueues older later <$> adjustBase a s := by
  simp only [adjustBase, valueOf_withQueues, map_bind, map_pure]
  rfl

theorem outputEffect_withQueues (a : Param) :
    outputEffect a (s.withQueues older later) = State.withQueues older later <$> outputEffect a s := by
  simp only [outputEffect, valueOf_withQueues, map_bind, map_pure]
  congr 1; funext x
  simp only [State.withQueues, State.advance, List.append_assoc]

/-- Later input is seen by an IN that would find nothing, and by no other. -/
theorem inputEffect_withQueues (a : Param) (h : s.inq = [] → later = []) :
    inputEffect a (s.withQueues older later) = State.withQueues older later <$> inputEffect a s := by
  simp only [inputEffect, addressOf_withQueues, map_bind]
  congr 1; funext d
  obtain ⟨_, _, _, _, _, _ | ⟨v, rest⟩, _, _⟩ := s
  · obtain rfl := h rfl; rfl
  · rfl

theorem effectOf_withQueues {i : Instr} (h : ∀ a, i = .inp a → s.inq = [] → later = []) :
    effectOf i (s.withQueues older later) = State.withQueues older later <$> effectOf i s := by
  cases i with
  | add a b c | mul a b c | lt a b c | eq a b c => exact alu3_withQueues older later s _ a b c
  | inp a => exact inputEffect_withQueues older later s a (h a rfl)
  | out a => exact outputEffect_withQueues older later s a
  | jt a b | jf a b => exact jump2_withQueues older later s _ a b
  | arb a => exact adjustBase_withQueues older later s a
  | hlt => rfl

variable {s} {t : State}

theorem step_withQueues (h : step s = .next t) (hin : ∀ a, fetchInstr s = .ok (.inp a) → s.inq = [] → later = []) :
    step (s.withQueues older later) = .next (t.withQueues older later) := by
  have hfetch : fetchInstr (s.withQueues older later) = fetchInstr s := fetchInstr_congr rfl rfl rfl
  obtain ⟨hs, ⟨i, hf, he⟩ | ⟨f, hf, rfl⟩⟩ := step_next.1 h
  · have hs' : (s.withQueues older later).status = .running := hs
    have heff := effectOf_withQueues older later s (i := i) fun a ha => hin a (ha ▸ hf)
    rw [step_of_fetch_ok hs' (hfetch.trans hf)]
    obtain he' | ⟨f, he', rfl⟩ := exec_next.1 he
    · rw [he'] at heff; exact exec_of_effect heff
    · rw [he'] at heff; exact exec_of_fault heff
  · exact step_of_fetch_error hs (hfetch.trans hf)

end

section
variable {s t : State}

/-- A step after which the core runs on was no IN that found nothing. -/
theorem inq_ne_nil_of_step_running {a : Param} (h : step s = .next t) (ht : t.status = .running)
    (hf : fetchInstr s = .ok (.inp a)) : s.inq ≠ [] := by
  intro hq
  have hs := (step_next.1 h).1
  rw [step_of_fetch_ok hs hf] at h
  obtain he | ⟨f, -, rfl⟩ := exec_next.1 h
  · obtain ⟨d, -, ⟨-, rfl⟩ | ⟨v, rest, hq', -⟩⟩ := inputEffect_ok.1 he
    · cases ht
    · rw [hq] at hq'; cases hq'
  · cases ht

/-- A run that suspends, and then goes on with more input, ends as with that input from the start: the steps before it
suspends do not see the later input, and the step that suspends is the one taken again. -/
theorem run_moreInput {n m : Nat} {u : State} {q : List Int} (hs : s.status = .running) (h : run n s = .ended t)
    (ht : t.status = .suspended) (hu : run m { t with inq := t.inq ++ q, status := .running } = .ended u) :
    run (n + m) (s.withQueues [] q) = .ended u := by
  induction n generalizing s with
  | zero => rw [run_zero, if_pos hs] at h; cases h
  | succ n ih =>
    obtain ⟨s', hstep⟩ := step_is_next hs
    rw [run_step hstep] at h
    by_cases hs' : s'.status = .running
    · have hmore := step_withQueues [] q hstep fun a hf hq => absurd hq (inq_ne_nil_of_step_running hstep hs' hf)
      rw [Nat.add_right_comm, run_step hmore]
      exact ih hs' h
    · rw [run_stop hs'] at h
      cases h
      obtain ⟨-, rfl, -⟩ := step_suspends hstep ht
      rw [Nat.add_comm]
      refine run_add_of_ended (n + 1) ?_
      rw [← hu, State.withQueues, ← hs]
      rfl

end

/-- Settles O46: by the inversion lemmas of the effects and of the host's calls. -/
theorem outputIsProducedInOrder : Obligations.OutputIsProducedInOrder :=
  ⟨fun _ _ => step_outq, fun _ _ _ _ => stateAfter_outq⟩

/-- Settles O47: no effect reads the output queue, and OUT appends at its other end. -/
theorem outputNeverInfluencesTheCore : Obligations.OutputNeverInfluencesTheCore := by
  have hid : ∀ (q : List Int) (s : State), s.withQueues q [] = { s with outq := q ++ s.outq } := fun q s => by
    rw [State.withQueues, List.append_nil]
  intro s t q h
  rw [← hid, ← hid]
  exact step_withQueues q [] h fun _ _ _ => rfl

/-- Settles O48, by induction on the bound of the run that suspends. -/
theorem inputTimingDoesNotMatter : Obligations.InputTimingDoesNotMatter :=
  fun _ _ _ _ _ _ hs h ht hu => run_moreInput hs h ht hu

end Sys2Proof.Machine
end

section
/-! PROOFS. The host (60_exceptions.md sections 3 and 4, 70_reset_and_hazards.md section 1): launch, statuses, the answers of
its operations. -/

namespace Sys2Proof.Machine

/-- Settles O55: Faulted is not among the statuses from which a call starts a run. -/
theorem faultedIsPermanent : Obligations.FaultedIsPermanent := by
  intro n k s t hs h
  obtain ⟨hstatus, -, -, hfault⟩ := stateAfter_sameControl_of_stopped (.inr hs) h
  rw [hs] at hstatus
  refine ⟨hstatus, hfault, ?_⟩
  rw [stepNeedsRunning t (by rw [hstatus]; decide), hstatus]

/-- Settles O56: a call that runs nothing keeps the status, and a run ends in one of its three ways. -/
theorem hostCallsMoveStatusAsTabled : Obligations.HostCallsMoveStatusAsTabled := by
  intro n k s t h
  obtain ⟨hx, hr⟩ | rfl | ⟨hk, hrun⟩ := stateAfter_cases h
  · exact .inl (stateAfter_sameControl hx hr h).1
  · exact .inl rfl
  · exact .inr ⟨hk, run_ended_status hrun rfl⟩

/-- Settles O1: `new` is evaluated. -/
theorem resetIsLaunchOfEmptyProgram : Obligations.ResetIsLaunchOfEmptyProgram := rfl

/-- Settles O2: the words of a loaded program stand in order, and 0 after them. -/
theorem newEstablishesResetValues : Obligations.NewEstablishesResetValues := by
  intro c program hlen hw
  have hread : ∀ a, (Memory.load 0 program).read a = program.getD a 0 := fun a => by
    simpa using Memory.read_load program 0 a
  refine ⟨_, new_ok.2 ⟨hlen, hw, rfl⟩, rfl, fun a h => ?_, fun a h _ => ?_, rfl, rfl, rfl, rfl, rfl, rfl⟩
  · rw [hread, List.getD_eq_getElem _ _ h]
  · rw [hread, List.getD_eq_default _ _ h]

/-- Settles O3: by all that `new` answers. -/
theorem newRefusesWhatMemoryCannotHold : Obligations.NewRefusesWhatMemoryCannotHold := by
  intro c program
  constructor
  · rintro ⟨s, h⟩
    obtain ⟨hlen, hw, -⟩ := new_ok.1 h
    exact ⟨hlen, hw⟩
  · rintro ⟨hlen, hw⟩
    exact ⟨_, new_ok.2 ⟨hlen, hw, rfl⟩⟩

/-- Settles O4: the reset state is a launch state of admissible parameters. -/
theorem resetMeetsInvariant : Obligations.ResetMeetsInvariant :=
  (new_inv (c := Config.standard) (by decide) resetIsLaunchOfEmptyProgram).1

/-- Settles O53: `result` tests the status for Faulted. -/
theorem resultIsStatusAndWordZeroOrFault : Obligations.ResultIsStatusAndWordZeroOrFault :=
  fun _ => ⟨fun h => if_pos h, fun h => if_neg h⟩

/-- Settles O57: with the core not Running, each operation tests the address next. -/
theorem hostReadsAndWritesMemory : Obligations.HostReadsAndWritesMemory := by
  refine fun s a v hs => ⟨fun ha => ?_, fun ha hv => writeMem_ok.2 ⟨hs, ha, hv, rfl⟩, fun ha => ⟨?_, ?_⟩⟩
  · rw [State.readMem, if_neg hs, if_pos ha]
  · rw [State.readMem, if_neg hs, if_neg ha]
  · rw [State.writeMem, if_neg hs, if_pos ha]

/-- Settles O58: by all that the two operations answer. -/
theorem hostReadsAndWritesQueues : Obligations.HostReadsAndWritesQueues := by
  refine fun s v hs => ⟨fun hv => writeInput_ok.2 ⟨hs, hv, rfl⟩, fun hq => ?_, fun x rest hq => ?_⟩
  · exact readOutput_ok.2 ⟨hs, by rw [hq]; rfl, by rw [hq, List.tail_nil, ← hq]⟩
  · exact readOutput_ok.2 ⟨hs, by rw [hq]; rfl, by rw [hq, List.tail_cons]⟩

/-- Settles O59: each operation tests the status first. -/
theorem hostIsNotAcceptedWhileRunning : Obligations.HostIsNotAcceptedWhileRunning := by
  intro n s hs
  refine ⟨fun k t h => ?_, fun v => if_pos hs, if_pos hs, fun a => if_pos hs, fun a v => if_pos hs, if_pos hs,
    execute_of_running hs, resume_of_running hs⟩
  obtain ⟨hx, hr⟩ | rfl | ⟨hk, -⟩ := stateAfter_cases h
  · obtain rfl | ⟨v, -, hw⟩ | ⟨o, -, hw⟩ | ⟨a, v, -, hw⟩ := stateAfter_simple hx hr h
    · rfl
    · exact absurd hs (writeInput_ok.1 hw).1
    · exact absurd hs (readOutput_ok.1 hw).1
    · exact absurd hs (writeMem_ok.1 hw).1
  · rfl
  · rw [hs] at hk; simp at hk

/-- Settles O60: `clone` tests the status alone. -/
theorem cloneCopiesTheWholeState : Obligations.CloneCopiesTheWholeState := fun _ hs => if_neg hs

end Sys2Proof.Machine
end

section
/-! PROOFS. Memory, operands and the ALU (20_memory.md, 40_execution_cycle.md R102, R103, R109). -/

namespace Sys2Proof.Machine

/-- Settles O27: by the laws of a write, and because the canonical form is determined by its words. -/
theorem memoryWriteReplacesOneWord : Obligations.MemoryWriteReplacesOneWord :=
  ⟨fun m a v h => ⟨Memory.wf_write a v h, Memory.read_write_same h a v, fun _ => Memory.read_write_other m v⟩,
    fun _ _ => Memory.eq_of_read_eq⟩

theorem not_inRange_of_outside {c : Config} {a : Int} (h : a < 0 ∨ a ≥ c.memSize) : ¬ inRange c a := by
  rintro ⟨h0, h1⟩; omega

/-- Settles O28, mode by mode. -/
theorem valueOfReadParameter : Obligations.ValueOfReadParameter := by
  refine fun s i p => ⟨rfl, fun h0 h1 => ?_, fun h => ?_, fun h0 h1 => ?_, fun h => ?_⟩
  · exact valueOf_ok.2 (.inr ⟨p, rfl, ⟨h0, h1⟩, rfl⟩)
  · exact valueOf_error.2 ⟨p, rfl, not_inRange_of_outside h, rfl⟩
  · exact valueOf_ok.2 (.inr ⟨p + s.rb, rfl, ⟨h0, h1⟩, rfl⟩)
  · exact valueOf_error.2 ⟨p + s.rb, rfl, not_inRange_of_outside h, rfl⟩

/-- Settles O29, mode by mode. -/
theorem addressOfWriteParameter : Obligations.AddressOfWriteParameter := by
  refine fun s i p => ⟨rfl, fun h0 h1 => ?_, fun h => ?_, fun h0 h1 => ?_, fun h => ?_⟩
  · exact addressOf_ok.2 ⟨p, rfl, ⟨h0, h1⟩, rfl⟩
  · exact addressOf_error.2 (.inr ⟨p, rfl, not_inRange_of_outside h, rfl⟩)
  · exact addressOf_ok.2 ⟨p + s.rb, rfl, ⟨h0, h1⟩, rfl⟩
  · exact addressOf_error.2 (.inr ⟨p + s.rb, rfl, not_inRange_of_outside h, rfl⟩)

/-- Settles O30: each function checks its exact result, or gives a truth value. -/
theorem aluFunctions : Obligations.AluFunctions := by
  refine fun c x y => ⟨fun h => ⟨?_, ?_⟩, fun h => ⟨?_, ?_⟩, fun h => ?_, fun h => ?_, rfl, rfl⟩
  · exact checkWord_ok.2 ⟨h, rfl⟩
  · exact checkWord_ok.2 ⟨h, rfl⟩
  · exact checkWord_error.2 ⟨h, rfl⟩
  · exact checkWord_error.2 ⟨h, rfl⟩
  · exact checkWord_ok.2 ⟨h, rfl⟩
  · exact checkWord_error.2 ⟨h, rfl⟩

end Sys2Proof.Machine
end
